-- ==== Sys2Proof/Word.lean ====
section
/-! DEFINITION. The byte, the one width of this machine's data (00_scope.md R8, R9), and reduction to it. -/

namespace Sys2Proof

/-- A memory cell, a register or an instruction byte: 8 bits, always unsigned (R8, R9). -/
abbrev Byte := BitVec 8

/-- `u8(v) = v mod 256` (00_scope.md R9). -/
def u8 (v : Nat) : Byte := BitVec.ofNat 8 v

end Sys2Proof
end

