-- ==== Sys2Proof/Syntax.lean ====
section
/-! DEFINITION. The 13 instructions of 30_encoding.md R53, with their operand bytes kept raw: a register operand is a
whole byte, taken as an index in [0,255] and not checked before the register is accessed (R51, R58). -/

namespace Sys2Proof

/-- One constructor per row of spec/opcode_table.json. Operands stand in encoding order (R59). -/
inductive Instr where
  /-- HLT, format Z (R76). -/
  | hlt
  /-- LDI r, imm, format RI (R77). -/
  | ldi (r imm : Byte)
  /-- PRN r, format R (R78). -/
  | prn (r : Byte)
  /-- MUL a, b, format RR (R84). -/
  | mul (a b : Byte)
  /-- ADD a, b, format RR (R85). -/
  | add (a b : Byte)
  /-- CMP a, b, format RR (R86). -/
  | cmp (a b : Byte)
  /-- PUSH r, format R (R88). -/
  | push (r : Byte)
  /-- POP r, format R (R89). -/
  | pop (r : Byte)
  /-- CALL r, format R (R92). -/
  | call (r : Byte)
  /-- RET, format Z (R93). -/
  | ret
  /-- JMP r, format R (R94). -/
  | jmp (r : Byte)
  /-- JEQ r, format R (R95). -/
  | jeq (r : Byte)
  /-- JNE r, format R (R96). -/
  | jne (r : Byte)
deriving DecidableEq, Repr

/-- The four formats of R50. -/
inductive Format where
  /-- No operand. -/
  | Z
  /-- One register operand byte. -/
  | R
  /-- Two register operand bytes. -/
  | RR
  /-- A register operand byte and an immediate byte. -/
  | RI
deriving DecidableEq, Repr

/-- The format column of R53. -/
def Instr.format : Instr → Format
  | .hlt | .ret => .Z
  | .prn _ | .push _ | .pop _ | .call _ | .jmp _ | .jeq _ | .jne _ => .R
  | .mul _ _ | .add _ _ | .cmp _ _ => .RR
  | .ldi _ _ => .RI

/-- The operand bytes at pc+1, pc+2, in that order (R50, R59). -/
def Instr.operands : Instr → List Byte
  | .hlt | .ret => []
  | .prn r | .push r | .pop r | .call r | .jmp r | .jeq r | .jne r => [r]
  | .mul a b | .add a b | .cmp a b => [a, b]
  | .ldi r imm => [r, imm]

/-- The operand bytes that name a register: all but LDI's immediate (R50, R52). -/
def Instr.registerOperands : Instr → List Byte
  | .ldi r _ => [r]
  | i => i.operands

end Sys2Proof
end

