-- ==== Sys2Proof/Decode.lean ====
section
/-! DEFINITION. The decoder, total on any bytes and rejecting by name, and after it the encoder. The decoder is written
from the binary column of the opcode map and the encoder from its hexadecimal column (30_encoding.md R53), so that the
round trip compares two transcriptions. -/

namespace Sys2Proof

/-- What an opcode byte selects: an instruction that still waits for its operand bytes (R50, R56). -/
inductive Shape where
  /-- Complete: format Z. -/
  | done (i : Instr)
  /-- Waits for the byte at pc+1: format R. -/
  | one (mk : Byte → Instr)
  /-- Waits for the bytes at pc+1 and pc+2: formats RR and RI. -/
  | two (mk : Byte → Byte → Instr)

/-- Why a list of bytes is no instruction. -/
inductive DecodeRefusal where
  /-- There is no opcode byte. -/
  | noBytes
  /-- The opcode byte is none of the 13 of R53 (R57). -/
  | unknownOpcode (b : Byte)
  /-- The opcode is legal and the list ends before the operand byte at pc+k (R66). -/
  | missingOperand (k : Nat)
deriving DecidableEq, Repr

/-- The opcode map: the decoder compares the whole opcode byte with the 13 values, and no other byte selects anything
(R53, R54, R57). -/
def decodeOpcode (b : Byte) : Option Shape :=
  match b with
  | 0b00000001 => some (.done .hlt)
  | 0b10000010 => some (.two .ldi)
  | 0b01000111 => some (.one .prn)
  | 0b10100010 => some (.two .mul)
  | 0b10100000 => some (.two .add)
  | 0b10100111 => some (.two .cmp)
  | 0b01000101 => some (.one .push)
  | 0b01000110 => some (.one .pop)
  | 0b01010000 => some (.one .call)
  | 0b00010001 => some (.done .ret)
  | 0b01010100 => some (.one .jmp)
  | 0b01010101 => some (.one .jeq)
  | 0b01010110 => some (.one .jne)
  | _ => none

/-- The operand bytes follow the opcode at increasing addresses (R41, R49): fill the shape from the bytes after it. -/
def Shape.fill : Shape → List Byte → Except DecodeRefusal (Instr × List Byte)
  | .done i, rest => .ok (i, rest)
  | .one mk, r :: rest => .ok (mk r, rest)
  | .one _, [] => .error (.missingOperand 1)
  | .two mk, a :: b :: rest => .ok (mk a b, rest)
  | .two _, [_] => .error (.missingOperand 2)
  | .two _, [] => .error (.missingOperand 1)

/-- Decode the instruction at the front of a list of bytes; what follows it is handed back. The opcode is looked up
before any operand byte is asked for (R65, R66). -/
def decode : List Byte → Except DecodeRefusal (Instr × List Byte)
  | [] => .error .noBytes
  | b :: rest =>
    match decodeOpcode b with
    | none => .error (.unknownOpcode b)
    | some shape => shape.fill rest

/-- The opcode byte of an instruction: the hexadecimal column of R53. -/
def Instr.opcodeByte : Instr → Byte
  | .hlt => 0x01
  | .ldi _ _ => 0x82
  | .prn _ => 0x47
  | .mul _ _ => 0xA2
  | .add _ _ => 0xA0
  | .cmp _ _ => 0xA7
  | .push _ => 0x45
  | .pop _ => 0x46
  | .call _ => 0x50
  | .ret => 0x11
  | .jmp _ => 0x54
  | .jeq _ => 0x55
  | .jne _ => 0x56

/-- The words of an instruction: its opcode byte, then its operand bytes (R49, R50). -/
def encode (i : Instr) : List Byte := i.opcodeByte :: i.operands

/-- The operand bytes of a format (R50). -/
def Format.operandCount : Format → Nat
  | .Z => 0
  | .R => 1
  | .RR => 2
  | .RI => 2

/-- "1 + (number of operand bytes for that opcode)" (R49). -/
def Instr.length (i : Instr) : Nat := 1 + i.operands.length

/-- The three bytes of a word as spec/opcode_table.json numbers it: bit 0 is the least significant bit of the first
byte, and every bit from `nbits` on is 0. Three bytes are the longest instruction (R49). -/
def tableBytes (nbits w : Nat) : List Byte :=
  let v := w % 2 ^ nbits
  [u8 v, u8 (v / 256), u8 (v / 65536)]

/-- The instruction the decoder reads from an instruction whose bits are `w`. -/
def decodeTableWord (nbits w : Nat) : Option Instr :=
  match decode (tableBytes nbits w) with
  | .ok (i, _) => some i
  | .error _ => none

end Sys2Proof
end

