-- ==== Sys2Proof/Config.lean ====
section
/-! DEFINITION. The implementation parameters of 00_scope.md R8. The spec leaves no parameter and no value open
(92_eei_decisions.md: "No point is left OPEN"), so there is no free value here. -/

namespace Sys2Proof.Config

/-- `MEM_SIZE`: the valid addresses are exactly [0,256) (R8, R34). -/
abbrev memSize : Nat := 256

/-- `NUM_REGS`: registers R0 to R7 (R8, R15). -/
abbrev numRegs : Nat := 8

/-- `SP_INIT`: the value run entry gives R7 (R8, R16, R114). -/
def spInit : Byte := 0xF4

/-- `PC_RESET`: the entry point (R8, R116). -/
def pcReset : Nat := 0

/-- What a cell holds when neither the load image nor a store has written it: "zero-initialized" (R33, R45). -/
def memReset : Byte := 0

end Sys2Proof.Config
end

