-- ==== Sys2Proof/Machine/State.lean ====
section
/-! DEFINITION. The state (M, x, pc, FL, state, err, out) of 10_state.md, as plain data, and its value after
construction (70_reset_and_hazards.md R112). R30: the machine has no other architectural state. -/

namespace Sys2Proof.Machine

/-- Memory as (address, byte) pairs in one canonical form (`Memory.wf`, log entry 18): addresses strictly rising and
below 256, no listed byte equal to what an unlisted address reads as (R33). -/
abbrev Memory := List Host.Cell

/-- The four values FL may hold (10_state.md R24); their bit patterns are `Flags.bits`. A four-valued type, so the
patterns 011, 101, 110 and 111 cannot be held (log entry 23). -/
inductive Flags where
  | none
  | equal
  | greaterThan
  | lessThan
deriving DecidableEq, Repr

/-- The run state (R27). The running flag of the source is exactly `running`. -/
inductive RunState where
  | notStarted
  | running
  | halted
  | failed
deriving DecidableEq, Repr

/-- An operation code of the ALU: the three it knows, and any other (42_alu.md R80, R81). The spec gives operation
codes no representation; DESIGN CHOICE, safe: others are numbered (log entry 17). -/
inductive AluOp where
  | add
  | mul
  | cmp
  | other (code : Nat)
deriving DecidableEq, Repr

/-- The detail of an `OutOfRangeAccess` (60_exceptions.md R99, R100). -/
inductive OutOfRange where
  /-- `memory a`: an address outside [0,256). -/
  | memory (a : Nat)
  /-- `register i`: an operand byte outside [0,8). -/
  | register (i : Byte)
  /-- `value v`: a value outside [0,256) written to memory. -/
  | value (v : Nat)
deriving DecidableEq, Repr

/-- The reason of a `LoadError` (R99). -/
inductive LoadReason where
  | unreadable
  | malformed
  | tooLong
deriving DecidableEq, Repr

/-- The four error kinds, without their details (R99). -/
inductive ErrorKind where
  | outOfRangeAccess
  | unsupportedOperation
  | unknownOpcode
  | loadError
deriving DecidableEq, Repr

/-- An error: its kind with the detail that kind carries (R99; log entry 7). -/
inductive MachineError where
  | outOfRangeAccess (what : OutOfRange)
  | unsupportedOperation (op : AluOp)
  | unknownOpcode (opcode : Byte)
  | loadError (reason : LoadReason)
deriving DecidableEq, Repr

/-- The error record `err` (R28): the error (kind, code and detail are read off it) and `err.pc`. -/
structure ErrorRecord where
  error : MachineError
  pc : Nat
deriving DecidableEq, Repr

/-- The complete state of one engine instance (10_state.md). -/
structure State where
  /-- `M`, 256 bytes (R33). -/
  mem : Memory
  /-- `x[0]` to `x[7]`; `x[7]` is SP (R15, R16). -/
  x : Vector Byte 8
  /-- The program counter, an unsigned integer that is never reduced (R21, R22). -/
  pc : Nat
  /-- The flags register (R24). -/
  fl : Flags
  /-- The run state (R27). -/
  state : RunState
  /-- The error record; `none` is the empty record (R28). -/
  err : Option ErrorRecord
  /-- The bytes PRN has emitted, the first emitted first (R29). -/
  out : List Byte
deriving DecidableEq, Repr

/-- The state after construction, the block's power-on reset (R112, R116). FL is NONE by the spec's decision D3
(R26; log entry 2). -/
def State.reset : State where
  mem := []
  x := Vector.replicate 8 0
  pc := Config.pcReset
  fl := .none
  state := .notStarted
  err := none
  out := []

/-- Why the machine has no next state. An ERROR of the hardware is not among these: it is a next state whose run state
is FAILED (R102). -/
inductive Fault where
  /-- Raised by `step` alone, in NOT_STARTED, HALTED and FAILED: "The engine has a step only while `state = RUNNING`"
  (R62). Safe: nothing follows from it (log entry 14). -/
  | noStep (state : RunState)
deriving DecidableEq, Repr

/-- What the model gives no meaning. -/
inductive Refusal where
  /-- Raised by an arm of `exec` for an instruction that has no meaning yet; no arm does. Safe. -/
  | notModelled (mnemonic : String)
  /-- Raised by `hostLoad` and `hostRun` while RUNNING: the host has no move then (R32, D11, I14). Unsafe, an
  assumption on the host (log entry 13). -/
  | hostActionWhileRunning
deriving DecidableEq, Repr

end Sys2Proof.Machine
end

