-- ==== Sys2Proof/Machine/Ops.lean ====
section
/-! DEFINITION. The named operations over memory and registers, taking an error, and the program-counter sequencer.
There is no return from an error: FAILED is terminal (60_exceptions.md R105). -/

namespace Sys2Proof.Machine

/-! ## The memory array (20_memory.md section 1) -/

/-- The byte at an address; an unlisted one reads as reset left it (R33, R45). -/
def Memory.read : Memory → Nat → Byte
  | [], _ => Config.memReset
  | (k, v) :: m, a => if k = a then v else Memory.read m a

/-- Drop what is listed at an address. -/
def Memory.erase (m : Memory) (a : Nat) : Memory := m.filter fun c => c.1 != a

/-- List a byte at an address, before the first higher one. -/
def Memory.insert : Memory → Nat → Byte → Memory
  | [], a, b => [(a, b)]
  | (k, v) :: m, a, b => if a < k then (a, b) :: (k, v) :: m else (k, v) :: Memory.insert m a b

/-- `M[a] <- b`, in the canonical form: the reset value is not listed. -/
def Memory.write (m : Memory) (a : Nat) (b : Byte) : Memory :=
  if b = Config.memReset then m.erase a else (m.erase a).insert a b

/-- The canonical form: addresses in [0,256) and strictly rising, no listed byte equal to the reset value. -/
def Memory.wf : Memory → Bool
  | [] => true
  | (k, v) :: m => decide (k < Config.memSize) && v != Config.memReset && m.all (fun c => decide (k < c.1)) && Memory.wf m

/-- Consecutive bytes from an address on, kept inside memory (R41, R113). -/
def Memory.writeBytes (m : Memory) (a : Nat) : List Byte → Memory
  | [] => m
  | b :: bs => Memory.writeBytes (if a < Config.memSize then m.write a b else m) (a + 1) bs

/-! ## Updates of one piece of state -/

/-- The program counter, and nothing else. -/
def State.setPc (s : State) (n : Nat) : State := { s with pc := n }

/-- One register, and nothing else. -/
def State.setReg (s : State) (i : Fin 8) (v : Byte) : State := { s with x := s.x.set i v }

/-- Memory, and nothing else. -/
def State.setMem (s : State) (m : Memory) : State := { s with mem := m }

/-- The flags register, and nothing else. -/
def State.setFl (s : State) (f : Flags) : State := { s with fl := f }

/-- `state <- HALTED` (R76). -/
def State.halt (s : State) : State := { s with state := .halted }

/-- `Output(v)`: append the byte v to `out` (00_scope.md R11). -/
def State.output (s : State) (v : Byte) : State := { s with out := s.out ++ [v] }

/-- Taking an error at the instruction at `s.pc`, from the state before it: `state <- FAILED`, `err` records the error
and its pc, and everything else keeps its value (60_exceptions.md R102, precise by D7; log entry 6). -/
def State.raise (s : State) (e : MachineError) : State := { s with state := .failed, err := some ⟨e, s.pc⟩ }

/-! ## The access primitives -/

/-- `MemRead(addr, 1)` (R37). -/
def State.memRead (s : State) (a : Nat) : Except MachineError Byte :=
  if a < Config.memSize then .ok (s.mem.read a) else .error (.outOfRangeAccess (.memory a))

/-- `MemWrite(addr, 1, v)`: the address is checked first, then the value, which is validated and not truncated
(R38, D4; log entry 3). -/
def State.memWrite (s : State) (a v : Nat) : Except MachineError State :=
  if a < Config.memSize then
    if v < 256 then .ok (s.setMem (s.mem.write a (u8 v))) else .error (.outOfRangeAccess (.value v))
  else .error (.outOfRangeAccess (.memory a))

/-! ## Handler outcomes and the program-counter sequencer (40_execution_cycle.md sections 1 and 2) -/

/-- How a handler that raises nothing ends (R68). -/
inductive Sequel where
  /-- Continue at the next sequential instruction. -/
  | next
  /-- Continue at a target in [0,255]. -/
  | jump (t : Byte)
  /-- Stop. -/
  | halt
deriving DecidableEq, Repr

/-- The four outcomes of R68: an error, or the working copy of the state (R12) and how to go on. -/
abbrev Handler := Except MachineError (State × Sequel)

/-- The sequencer writes `pc` once, from the instruction's length, and `pc + L` is not reduced; Halt leaves pc
(R69, D12; log entry 8). -/
def sequence (len : Nat) (s : State) : Sequel → State
  | .next => s.setPc (s.pc + len)
  | .jump t => s.setPc t.toNat
  | .halt => s.halt

/-- End an instruction of length `len` that started in `s`: its whole effect, or the error and nothing else
(R12, R63, R102). -/
def complete (len : Nat) (s : State) : Handler → Host.Outcome State Fault Refusal
  | .ok (t, q) => .next (sequence len t q)
  | .error e => .next (s.raise e)

end Sys2Proof.Machine
end

