-- ==== Sys2Proof/Machine/Flags.lean ====
section
/-! DEFINITION. The flags register's bit patterns, the one flag computation of the machine, and the numbers of the error
record. -/

namespace Sys2Proof.Machine

/-- The 3-bit pattern of FL: bit 2 is L, bit 1 is G, bit 0 is E (10_state.md R24). -/
def Flags.bits : Flags → BitVec 3
  | .none => 0b000
  | .equal => 0b001
  | .greaterThan => 0b010
  | .lessThan => 0b100

/-- `classify(a, b)`, over unsigned a and b; its last branch is unreachable and kept (42_alu.md R83). -/
def classify (a b : Byte) : Flags :=
  if a.toNat < b.toNat then .lessThan
  else if a.toNat > b.toNat then .greaterThan
  else if a.toNat = b.toNat then .equal
  else .none

/-- The kind of an error (60_exceptions.md R99). -/
def MachineError.kind : MachineError → ErrorKind
  | .outOfRangeAccess _ => .outOfRangeAccess
  | .unsupportedOperation _ => .unsupportedOperation
  | .unknownOpcode _ => .unknownOpcode
  | .loadError _ => .loadError

/-- The numeric codes 1 to 4, the spec's own choice (R99, D8). -/
def ErrorKind.code : ErrorKind → Nat
  | .outOfRangeAccess => 1
  | .unsupportedOperation => 2
  | .unknownOpcode => 3
  | .loadError => 4

/-- The status code the host sees: 0 when `err` is empty (R99). -/
def State.errCode (s : State) : Nat :=
  match s.err with
  | none => 0
  | some r => r.error.kind.code

end Sys2Proof.Machine
end

