-- ==== Sys2Proof/Machine/Operands.lean ====
section
/-! DEFINITION. The operand forms: a register named by a raw operand byte, a pair of them, and the stack slot that SP
names. The immediate of LDI needs no operation: it is the byte itself (30_encoding.md R52). -/

namespace Sys2Proof.Machine

/-- `x[i]` read through an operand byte: the whole byte is the index, and one outside [0,8) raises
(10_state.md R18, 30_encoding.md R51). -/
def State.readReg (s : State) (i : Byte) : Except MachineError Byte :=
  if h : i.toNat < 8 then .ok (s.x[i.toNat]'h) else .error (.outOfRangeAccess (.register i))

/-- `x[i] <- v`: stores `u8(v)`, with the same index check (R17, R18). -/
def State.writeReg (s : State) (i : Byte) (v : Nat) : Except MachineError State :=
  if h : i.toNat < 8 then .ok (s.setReg ⟨i.toNat, h⟩ (u8 v)) else .error (.outOfRangeAccess (.register i))

/-- The two source registers of MUL, ADD and CMP: op1 is checked before op2 (R101). -/
def State.readPair (s : State) (a b : Byte) : Except MachineError (Byte × Byte) := do
  let va ← s.readReg a
  let vb ← s.readReg b
  return (va, vb)

/-- `SP` is another name for `x[7]` (R10, R16). -/
def State.sp (s : State) : Byte := s.x[7]

/-- `x[7] <- x[7] - 1`, mod 256 (43_stack.md R87). -/
def State.decSp (s : State) : State := s.setReg 7 (s.sp - 1)

/-- `x[7] <- x[7] + 1`, mod 256 (R87). -/
def State.incSp (s : State) : State := s.setReg 7 (s.sp + 1)

/-- The address a push stores to: SP after its decrement (R87, R88, R92). -/
def State.pushAddr (s : State) : Nat := s.decSp.sp.toNat

/-- The write half of a push, at the SP it finds (R88, R92). -/
def State.storeAtSp (s : State) (v : Nat) : Except MachineError State := s.memWrite s.sp.toNat v

/-- The read half of a pop, at the SP it finds (R89, R93). -/
def State.loadAtSp (s : State) : Except MachineError Byte := s.memRead s.sp.toNat

end Sys2Proof.Machine
end

