-- ==== Sys2Proof/Machine/Alu.lean ====
section
/-! DEFINITION. The ALU and its three instructions MUL, ADD and CMP (42_alu.md). -/

namespace Sys2Proof.Machine

/-- What the ALU hands back: ADD and MUL a result byte, CMP a flags value (R80). -/
inductive AluResult where
  | value (v : Byte)
  | flags (f : Flags)
deriving DecidableEq, Repr

/-- `apply(op, a, b)`: pure, the three operations of equal priority, anything else `UnsupportedOperation`
(R80, R81, R82; 90_conflicts.md C3). -/
def aluApply (op : AluOp) (a b : Byte) : Except MachineError AluResult :=
  match op with
  | .add => .ok (.value (u8 (a.toNat + b.toNat)))
  | .mul => .ok (.value (u8 (a.toNat * b.toNat)))
  | .cmp => .ok (.flags (classify a b))
  | .other n => .error (.unsupportedOperation (.other n))

/-- Write the ALU's result: a byte to the first operand's register, a flags value to FL (R80). -/
def State.writeAlu (s : State) (dest : Byte) : AluResult → Except MachineError State
  | .value v => s.writeReg dest v.toNat
  | .flags f => .ok (s.setFl f)

/-- The shape R84, R85 and R86 share: read both registers, apply, write. -/
def aluHandler (op : AluOp) (a b : Byte) (s : State) : Handler := do
  let (va, vb) ← s.readPair a b
  let r ← aluApply op va vb
  let t ← s.writeAlu a r
  return (t, .next)

/-- MUL (R84). -/
def execMul (a b : Byte) (s : State) : Host.Outcome State Fault Refusal :=
  complete (Instr.mul a b).length s (aluHandler .mul a b s)

/-- ADD (R85). -/
def execAdd (a b : Byte) (s : State) : Host.Outcome State Fault Refusal :=
  complete (Instr.add a b).length s (aluHandler .add a b s)

/-- CMP (R86). -/
def execCmp (a b : Byte) (s : State) : Host.Outcome State Fault Refusal :=
  complete (Instr.cmp a b).length s (aluHandler .cmp a b s)

end Sys2Proof.Machine
end

