-- ==== Sys2Proof/Machine/Control.lean ====
section
/-! DEFINITION. CALL, RET, JMP, JEQ and JNE (44_control.md). -/

namespace Sys2Proof.Machine

/-- A transfer to the address a register holds: the body of JMP, and of JEQ and JNE when taken (R94, R95, R96). -/
def jumpTo (r : Byte) (s : State) : Handler := do
  let t ← s.readReg r
  return (s, .jump t)

/-- CALL: SP is decremented, the return address `pc + 2` is stored, and then the target is read (R92; the value check
at address 254 is decision D4, log entry 3). -/
def execCall (r : Byte) (s : State) : Host.Outcome State Fault Refusal :=
  complete (Instr.call r).length s do
    let t ← s.decSp.storeAtSp (s.pc + 2)
    let target ← t.readReg r
    return (t, .jump target)

/-- RET: the return address is read at SP, then SP is incremented (R93). -/
def execRet (s : State) : Host.Outcome State Fault Refusal :=
  complete Instr.ret.length s do
    let target ← s.loadAtSp
    return (s.incSp, .jump target)

/-- JMP (R94). -/
def execJmp (r : Byte) (s : State) : Host.Outcome State Fault Refusal :=
  complete (Instr.jmp r).length s (jumpTo r s)

/-- JEQ: not taken, the register byte is not looked at (R95, D16; log entry 10). -/
def execJeq (r : Byte) (s : State) : Host.Outcome State Fault Refusal :=
  complete (Instr.jeq r).length s (if s.fl = .equal then jumpTo r s else .ok (s, .next))

/-- JNE: taken for NONE, LESS_THAN and GREATER_THAN (R96, D16; log entry 10). -/
def execJne (r : Byte) (s : State) : Host.Outcome State Fault Refusal :=
  complete (Instr.jne r).length s (if s.fl ≠ .equal then jumpTo r s else .ok (s, .next))

end Sys2Proof.Machine
end

