-- ==== Sys2Proof/Machine/Stack.lean ====
section
/-! DEFINITION. PUSH and POP (43_stack.md). Effects stand in the order of the pseudocode, and a later read sees an
earlier write (R12, D6; log entry 5). -/

namespace Sys2Proof.Machine

/-- PUSH: SP is decremented, then the register is read, then the byte is stored (R88). -/
def execPush (r : Byte) (s : State) : Host.Outcome State Fault Refusal :=
  complete (Instr.push r).length s do
    let t := s.decSp
    let v ← t.readReg r
    let u ← t.storeAtSp v.toNat
    return (u, .next)

/-- POP: the byte is read, then written to the register, then SP is incremented (R89). -/
def execPop (r : Byte) (s : State) : Host.Outcome State Fault Refusal :=
  complete (Instr.pop r).length s do
    let v ← s.loadAtSp
    let t ← s.writeReg r v.toNat
    return (t.incSp, .next)

end Sys2Proof.Machine
end

