-- ==== Sys2Proof/Machine/System.lean ====
section
/-! DEFINITION. HLT, LDI and PRN (41_system_data.md). -/

namespace Sys2Proof.Machine

/-- HLT (R76). -/
def execHlt (s : State) : Host.Outcome State Fault Refusal :=
  complete Instr.hlt.length s (.ok (s, .halt))

/-- LDI (R77). -/
def execLdi (r imm : Byte) (s : State) : Host.Outcome State Fault Refusal :=
  complete (Instr.ldi r imm).length s do
    let t ← s.writeReg r imm.toNat
    return (t, .next)

/-- PRN (R78). -/
def execPrn (r : Byte) (s : State) : Host.Outcome State Fault Refusal :=
  complete (Instr.prn r).length s do
    let v ← s.readReg r
    return (s.output v, .next)

end Sys2Proof.Machine
end

