-- ==== Sys2Proof/WellFormed.lean ====
section
/-! DEFINITION. What can be checked of an instruction before it runs. The encoding itself admits every term of `Instr`:
"Any value 0..255 decodes" (30_encoding.md R58), so neither decoding nor encoding rests on these checks.
DESIGN CHOICE, safe (log entry 22): a well-formed instruction is one the assembler can spell (R59). -/

namespace Sys2Proof

/-- The operand byte names one of R0 to R7: "register indices are always in [0,8)" (10_state.md R18). -/
def namesRegister (r : Byte) : Bool := decide (r.toNat < Config.numRegs)

/-- Every register operand names a register: the instructions that assembler text can spell (30_encoding.md R59). -/
def Instr.wellFormed (i : Instr) : Bool := i.registerOperands.all namesRegister

/-- All of the instruction's bytes lie in memory when its opcode stands at `p` (40_execution_cycle.md R66). -/
def Instr.fitsAt (i : Instr) (p : Nat) : Bool := decide (p + 1 + i.operands.length ≤ Config.memSize)

/-- A load image that fits memory: at most 256 bytes (70_reset_and_hazards.md R113, R117). -/
def imageFits (image : List Byte) : Bool := decide (image.length ≤ Config.memSize)

end Sys2Proof
end

