-- ==== Sys2Proof/Machine/HostActions.lean ====
section
/-! DEFINITION. The host's two actions, Load and Run (10_state.md R31, 70_reset_and_hazards.md R113 to R115), and the
host's rendering of the output stream (41_system_data.md R79). -/

namespace Sys2Proof.Machine

/-- What the loader hands the block: an image, or the reason it could not produce one (R113). The text format it reads
is out of scope (00_scope.md R7). -/
inductive LoadRequest where
  | image (bytes : List Byte)
  | unreadable
  | malformed
deriving DecidableEq, Repr

/-- Construction, then `M[k] <- image[k]` (R113, steps 1 and 3). -/
def State.loaded (image : List Byte) : State := State.reset.setMem (Memory.writeBytes State.reset.mem 0 image)

/-- A failed load: construction, then FAILED with a LoadError at pc 0 (R113, step 2; D17, log entry 11). -/
def State.loadFailed (reason : LoadReason) : State := State.reset.raise (.loadError reason)

/-- The effect of an accepted `Load` (R113). -/
def State.afterLoad : LoadRequest → State
  | .image bytes => if imageFits bytes then State.loaded bytes else State.loadFailed .tooLong
  | .unreadable => State.loadFailed .unreadable
  | .malformed => State.loadFailed .malformed

/-- Run entry: `x[7] <- 0xF4`, `state <- RUNNING`, nothing else (R114). -/
def State.runEntry (s : State) : State := { s.setReg 7 Config.spInit with state := .running }

/-- `Load`: accepted when `state ≠ RUNNING` (R32, R113; log entry 13). -/
def hostLoad (q : LoadRequest) (s : State) : Host.Outcome State Fault Refusal :=
  if s.state = .running then .refused .hostActionWhileRunning else .next (State.afterLoad q)

/-- `Run`: run entry from NOT_STARTED, no effect in HALTED and FAILED (R114, R115; log entries 12 and 13). -/
def hostRun (s : State) : Host.Outcome State Fault Refusal :=
  match s.state with
  | .notStarted => .next s.runEntry
  | .running => .refused .hostActionWhileRunning
  | .halted => .next s
  | .failed => .next s

/-- One emitted byte as the host writes it: unsigned decimal digits, then a newline (R79, D10; log entry 19). -/
def renderByte (v : Byte) : String := toString v.toNat ++ "\n"

/-- The printed form of the output stream, one line a byte, in program order (R79). -/
def renderOutput (out : List Byte) : String := String.join (out.map renderByte)

end Sys2Proof.Machine
end

