-- ==== Sys2Proof/Machine/Fetch.lean ====
section
/-! DEFINITION. Instruction fetch and operand fetch (40_execution_cycle.md R64 to R66, R71), and the helpers that put an
instruction where the next step fetches. -/

namespace Sys2Proof.Machine

/-- Read a selected instruction's operand bytes, exactly the stated ones, pc+1 before pc+2 (R66, D5; log entry 4). -/
def State.fetchOperands (s : State) : Shape → Except MachineError Instr
  | .done i => .ok i
  | .one build => do
    let r ← s.memRead (s.pc + 1)
    return build r
  | .two build => do
    let a ← s.memRead (s.pc + 1)
    let b ← s.memRead (s.pc + 2)
    return build a b

/-- Opcode fetch, decode, operand fetch, in this order (R64, R65, R66, R101). -/
def State.fetch (s : State) : Except MachineError Instr := do
  let op ← s.memRead s.pc
  match decodeOpcode op with
  | none => .error (.unknownOpcode op)
  | some shape => s.fetchOperands shape

/-- The bytes of memory from an address on, at most `n`, and none past address 255. -/
def State.bytesFrom (s : State) (a : Nat) : Nat → List Byte
  | 0 => []
  | n + 1 => if a < Config.memSize then s.mem.read a :: s.bytesFrom (a + 1) n else []

/-- A state in which the next step fetches, with room for the longest instruction: a running one as it is (at pc 0 if
three bytes do not fit), a state not started after run entry, an ended one after a new load and run entry
(R72, R73, R114; log entry 15). -/
def State.readyToFetch (s : State) : State :=
  let t := match s.state with
    | .running => s
    | .notStarted => s.runEntry
    | .halted => State.reset.runEntry
    | .failed => State.reset.runEntry
  if t.pc + 3 ≤ Config.memSize then t else t.setPc Config.pcReset

/-- Store bytes where the next step fetches. -/
def State.placeAtPc (s : State) (bytes : List Byte) : State := s.setMem (s.mem.writeBytes s.pc bytes)

end Sys2Proof.Machine
end

