-- ==== Sys2Proof/Machine/Step.lean ====
section
/-! DEFINITION. The step of 40_execution_cycle.md R71. -/

namespace Sys2Proof.Machine

/-- One step: only while RUNNING (R62; elsewhere the model stops, log entry 14); fetch, decode and operand fetch may
raise (R64 to R66), and otherwise the handler runs (R67). -/
def step (s : State) : Host.Outcome State Fault Refusal :=
  if s.state = .running then
    match s.fetch with
    | .ok i => exec i s
    | .error e => .next (s.raise e)
  else .fault (.noStep s.state)

/-- `s` with the instruction of a table word stored where the very next step fetches it (log entry 15). -/
def State.withFetchWord (s : State) (nbits w : Nat) : State := s.readyToFetch.placeAtPc (tableBytes nbits w)

end Sys2Proof.Machine
end

