-- ==== Sys2Proof/Safety.lean ====
section
/-! DEFINITION. The terms claims are made in: the state of an outcome, an observable failure, the events of the state
machine, reachable states, and the invariant of the machine. -/

namespace Sys2Proof.Machine

/-- The next state of an outcome, if there is one. -/
def nextOf : Host.Outcome State Fault Refusal → Option State
  | .next t => some t
  | .fault _ => none
  | .refused _ => none

/-- The outcome is the failure of the instruction at `s.pc` with error `e`, said by what a claim may read after
FAILED: `state`, `err` and `out` (60_exceptions.md R102, R103). -/
def FailsWith (s : State) (e : MachineError) (o : Host.Outcome State Fault Refusal) : Prop :=
  ∃ t, o = .next t ∧ t.state = .failed ∧ t.err = some ⟨e, s.pc⟩ ∧ t.out = s.out

/-- A step at opcode byte `op` with `n` operand bytes fails at the first operand byte that lies past address 255
(40_execution_cycle.md R66, 60_exceptions.md R100), whatever the operand bytes that are there hold. That this error is
reported, and not one of a register operand, is the spec's decisions D5 and D13 (R101; log entries 4 and 9). -/
def PastTheEndFails (op : Byte) (n : Nat) : Prop :=
  ∀ (s : State) (k : Nat), s.state = .running → s.pc < 256 → s.mem.read s.pc = op → 1 ≤ k → k ≤ n → s.pc + k = 256 →
    FailsWith s (.outOfRangeAccess (.memory (s.pc + k))) (step s)

/-- The step at `u` treats `bytes` as what stands in memory from `u.pc` to at most address 255: it runs the instruction
they start with, fails on an illegal opcode, and fails at address 256 when they end before an operand byte
(40_execution_cycle.md R65 to R67; the last by decision D5, log entry 4). -/
def StepRuns (u : State) (bytes : List Byte) : Prop :=
  match decode bytes with
  | .ok (i, _) => step u = exec i u
  | .error (.unknownOpcode b) => FailsWith u (.unknownOpcode b) (step u)
  | .error (.missingOperand _) => FailsWith u (.outOfRangeAccess (.memory 256)) (step u)
  | .error .noBytes => False

/-- The registers an instruction writes when it completes: its destination operand, and SP where it moves the stack
(10_state.md R20, R23; 43_stack.md R87). -/
def destinations : Instr → List Nat
  | .ldi r _ => [r.toNat]
  | .mul a _ => [a.toNat]
  | .add a _ => [a.toNat]
  | .pop r => [r.toNat, 7]
  | .push _ => [7]
  | .call _ => [7]
  | .ret => [7]
  | .hlt => []
  | .prn _ => []
  | .cmp _ _ => []
  | .jmp _ => []
  | .jeq _ => []
  | .jne _ => []

/-- The events of the execution state machine (40_execution_cycle.md R72). -/
inductive Event where
  | load (q : LoadRequest)
  | run
  | step
deriving DecidableEq, Repr

/-- What an event does to a state. -/
def act : Event → State → Host.Outcome State Fault Refusal
  | .load q, s => hostLoad q s
  | .run, s => hostRun s
  | .step, s => step s

/-- The states that construction, loads, runs and steps lead to (R72, R112). -/
inductive Reachable : State → Prop where
  | construction : Reachable State.reset
  | event (e : Event) {s t : State} : Reachable s → act e s = .next t → Reachable t

/-- Execute instructions one after another, by their meanings alone. -/
def execAll : List Instr → State → Option State
  | [], s => some s
  | i :: is, s => (nextOf (exec i s)).bind (execAll is)

/-- The invariant of the machine. Nothing in it reads M, x, pc or FL as a result of a FAILED run (R103); that the
list holding M is canonical is a fact about the model's data. -/
structure Inv (s : State) : Prop where
  /-- Memory is canonical: equal memories are equal data, every listed address is below 256 (R33). -/
  mem_wf : s.mem.wf = true
  /-- Every value `pc` can take is in [0,256] (R22). -/
  pc_le : s.state ≠ .failed → s.pc ≤ 256
  /-- `err` is recorded exactly in FAILED (R28). -/
  err_iff : s.err.isSome = true ↔ s.state = .failed
  /-- Until run entry registers, pc, FL and out are as construction left them (R113, R116). -/
  fresh : s.state = .notStarted → s.x = Vector.replicate 8 0 ∧ s.pc = 0 ∧ s.fl = .none ∧ s.out = []
  /-- In HALTED, `pc` holds the address of the HLT opcode (R69, R76). -/
  halted_at : s.state = .halted → s.pc < 256 ∧ s.mem.read s.pc = 0x01

/-- The run has ended (40_execution_cycle.md R74). -/
def Ended (s : State) : Prop := s.state = .halted ∨ s.state = .failed

end Sys2Proof.Machine
end

