-- ==== Sys2Proof/Certificates/Slice0/Obligations.lean ====
section
/-! DEFINITION. The statements for the provers, in the order of OBLIGATIONS.json. A statement about a failing instruction
reads `state`, `err` and `out` alone (60_exceptions.md R103), except `ErrorsArePrecise`, which formalises R102 itself. -/

open Sys2Proof Sys2Proof.Machine

/-! ## Encoding -/

/-- Tier 1. Words written out from the opcode map and the formats decode to what they stand for (30_encoding.md R50, R53). -/
def Obligations.DecodesWrittenWords : Prop :=
  decode [0b00000001] = .ok (.hlt, []) ∧
  decode [0b10000010, 0b00000000, 0b00001000] = .ok (.ldi 0 8, []) ∧
  decode [0b10100111, 0b00000001, 0b00000010] = .ok (.cmp 1 2, []) ∧
  decode [0b01000101, 0b00000111] = .ok (.push 7, []) ∧
  decode [0b01010000, 0b11111111, 0b01000110] = .ok (.call 255, [0b01000110]) ∧
  decode [0b00010001, 0b01000110] = .ok (.ret, [0b01000110]) ∧
  decode [0b00000000] = .error (.unknownOpcode 0)

/-- Tier 3. Decoding what was encoded gives the instruction back, with every operand at every value 0..255, and hands
back the bytes that follow (30_encoding.md R50, R53, R56, R58). -/
def Obligations.DecodeUndoesEncode : Prop :=
  ∀ (i : Instr) (rest : List Byte), decode (encode i ++ rest) = .ok (i, rest)

/-- Tier 2. The other direction: what decodes is the encoding of the instruction it decodes to, so each word has one
meaning (30_encoding.md R53, R54, R56). -/
def Obligations.EncodeUndoesDecode : Prop :=
  ∀ (bytes : List Byte) (i : Instr) (rest : List Byte), decode bytes = .ok (i, rest) → encode i ++ rest = bytes

/-- Tier 1. The structure the 13 opcodes share: bits 7 and 6 are the operand count, bit 5 marks the ALU instructions,
bit 4 the instructions that may write `pc` with a target (30_encoding.md R55, an inference of the spec's own). -/
def Obligations.OpcodesShareOneLayout : Prop :=
  ∀ i : Instr,
    (i.opcodeByte.extractLsb' 6 2).toNat = i.operands.length ∧
    (i.opcodeByte.getLsbD 5 = true ↔ (∃ a b, i = .mul a b ∨ i = .add a b ∨ i = .cmp a b)) ∧
    (i.opcodeByte.getLsbD 4 = true ↔ (i = .ret ∨ ∃ r, i = .call r ∨ i = .jmp r ∨ i = .jeq r ∨ i = .jne r))

/-! ## Memory and registers -/

/-- Tier 1. `MemRead` (20_memory.md R37). -/
def Obligations.MemReadIsBounded : Prop :=
  ∀ (s : State) (a : Nat),
    (a < 256 → s.memRead a = .ok (s.mem.read a)) ∧
    (256 ≤ a → s.memRead a = .error (.outOfRangeAccess (.memory a)))

/-- Tier 1. `MemWrite`: the address is checked, then the value is validated, and exactly one cell changes (20_memory.md,
MemWrite; that the value is validated and not truncated is the spec's decision D4, log entry 3). -/
def Obligations.MemWriteIsValidated : Prop :=
  ∀ (s : State) (a v : Nat),
    (a < 256 → v < 256 → ∃ t, s.memWrite a v = .ok t ∧
      (∀ k, t.mem.read k = if k = a then BitVec.ofNat 8 v else s.mem.read k) ∧
      t.x = s.x ∧ t.pc = s.pc ∧ t.fl = s.fl ∧ t.state = s.state ∧ t.err = s.err ∧ t.out = s.out) ∧
    (a < 256 → 256 ≤ v → s.memWrite a v = .error (.outOfRangeAccess (.value v))) ∧
    (256 ≤ a → s.memWrite a v = .error (.outOfRangeAccess (.memory a)))

/-- Tier 1. A register is named by the whole operand byte, and an index outside [0,8) raises, on a read and on a write
(10_state.md R18). -/
def Obligations.RegisterIndexIsChecked : Prop :=
  ∀ (s : State) (i : Byte) (v : Nat),
    (∀ h : i.toNat < 8, s.readReg i = .ok (s.x[i.toNat]'h) ∧
      s.writeReg i v = .ok { s with x := s.x.set i.toNat (BitVec.ofNat 8 v) h }) ∧
    (8 ≤ i.toNat → s.readReg i = .error (.outOfRangeAccess (.register i)) ∧
      s.writeReg i v = .error (.outOfRangeAccess (.register i)))

/-- Tier 2. The canonical form decides: two canonical memories that read alike are the same data (log entry 18: the
list is the model's representation of the array of 20_memory.md R33). -/
def Obligations.CanonicalMemoriesAreEqual : Prop :=
  ∀ m n : Memory, m.wf = true → n.wf = true → (∀ a, m.read a = n.read a) → m = n

/-! ## Flags and ALU -/

/-- Tier 1. The four values of FL have exactly the patterns of 10_state.md R24, and no other pattern is held. -/
def Obligations.FlagPatternsAreExact : Prop :=
  Flags.none.bits = 0b000 ∧ Flags.equal.bits = 0b001 ∧ Flags.greaterThan.bits = 0b010 ∧ Flags.lessThan.bits = 0b100 ∧
  ∀ f : Flags, f.bits ≠ 0b011 ∧ f.bits ≠ 0b101 ∧ f.bits ≠ 0b110 ∧ f.bits ≠ 0b111

/-- Tier 1. ADD and MUL wrap modulo 256 and commute; overflow is no error and nothing records it (42_alu.md R82). -/
def Obligations.AluWrapsAndCommutes : Prop :=
  ∀ a b : Byte,
    (∃ v, aluApply .add a b = .ok (.value v) ∧ v.toNat = (a.toNat + b.toNat) % 256) ∧
    (∃ v, aluApply .mul a b = .ok (.value v) ∧ v.toNat = (a.toNat * b.toNat) % 256) ∧
    aluApply .add a b = aluApply .add b a ∧ aluApply .mul a b = aluApply .mul b a

/-- Tier 1. Any operation other than ADD, MUL and CMP raises UnsupportedOperation (42_alu.md, the ALU; how other codes
are written is log entry 17). -/
def Obligations.AluRefusesOtherOperations : Prop :=
  ∀ (op : AluOp) (a b : Byte), op ≠ .add → op ≠ .mul → op ≠ .cmp → aluApply op a b = .error (.unsupportedOperation op)

/-! ## The instructions: encoding, effect with frame, and errors -/

/-- Tier 1. HLT halts and changes nothing else; that `pc` keeps the HLT's address is the spec's decision D12 (log entry
8). HLT reads no operand byte, so it halts at address 255 too: decision D5, log entry 4 (41_system_data.md, HLT). -/
def Obligations.HltHalts : Prop :=
  encode .hlt = [0x01] ∧
  (∀ s : State, exec .hlt s = .next { s with state := .halted }) ∧
  (∀ s : State, s.state = .running → s.pc < 256 → s.mem.read s.pc = 0x01 → step s = .next { s with state := .halted })

/-- Tier 1. LDI (41_system_data.md, LDI). That the operand fetch at address 256 is the error reported at 254, whatever
the register byte at 255 holds, is the spec's decisions D5 and D13 (log entries 4 and 9). -/
def Obligations.LdiLoadsImmediate : Prop :=
  (∀ r imm : Byte, encode (.ldi r imm) = [0x82, r, imm]) ∧
  (∀ (s : State) (r imm : Byte) (h : r.toNat < 8),
    exec (.ldi r imm) s = .next { s with x := s.x.set r.toNat imm h, pc := s.pc + 3 }) ∧
  (∀ (s : State) (r imm : Byte), 8 ≤ r.toNat →
    FailsWith s (.outOfRangeAccess (.register r)) (exec (.ldi r imm) s)) ∧
  PastTheEndFails 0x82 2

/-- Tier 1. PRN (41_system_data.md R78). -/
def Obligations.PrnEmitsRegister : Prop :=
  (∀ r : Byte, encode (.prn r) = [0x47, r]) ∧
  (∀ (s : State) (r : Byte) (h : r.toNat < 8),
    exec (.prn r) s = .next { s with out := s.out ++ [s.x[r.toNat]'h], pc := s.pc + 2 }) ∧
  (∀ (s : State) (r : Byte), 8 ≤ r.toNat → FailsWith s (.outOfRangeAccess (.register r)) (exec (.prn r) s)) ∧
  PastTheEndFails 0x47 1

/-- Tier 1. MUL (42_alu.md section 2, MUL): the low byte of the product. The order of its errors, the operand fetch
before both registers and op1 before op2, is the spec's decisions D5 and D13 (log entries 4 and 9). -/
def Obligations.MulMultipliesLowByte : Prop :=
  (∀ a b : Byte, encode (.mul a b) = [0xA2, a, b]) ∧
  (∀ (s : State) (a b : Byte) (ha : a.toNat < 8) (hb : b.toNat < 8),
    exec (.mul a b) s = .next { s with
      x := s.x.set a.toNat (BitVec.ofNat 8 ((s.x[a.toNat]'ha).toNat * (s.x[b.toNat]'hb).toNat)) ha, pc := s.pc + 3 }) ∧
  (∀ (s : State) (a b : Byte), 8 ≤ a.toNat → FailsWith s (.outOfRangeAccess (.register a)) (exec (.mul a b) s)) ∧
  (∀ (s : State) (a b : Byte), a.toNat < 8 → 8 ≤ b.toNat →
    FailsWith s (.outOfRangeAccess (.register b)) (exec (.mul a b) s)) ∧
  PastTheEndFails 0xA2 2

/-- Tier 1. ADD (42_alu.md section 2, ADD): the sum modulo 256. The order of its errors, the operand fetch before both
registers and op1 before op2, is the spec's decisions D5 and D13 (log entries 4 and 9). -/
def Obligations.AddAddsModulo256 : Prop :=
  (∀ a b : Byte, encode (.add a b) = [0xA0, a, b]) ∧
  (∀ (s : State) (a b : Byte) (ha : a.toNat < 8) (hb : b.toNat < 8),
    exec (.add a b) s = .next { s with
      x := s.x.set a.toNat (BitVec.ofNat 8 ((s.x[a.toNat]'ha).toNat + (s.x[b.toNat]'hb).toNat)) ha, pc := s.pc + 3 }) ∧
  (∀ (s : State) (a b : Byte), 8 ≤ a.toNat → FailsWith s (.outOfRangeAccess (.register a)) (exec (.add a b) s)) ∧
  (∀ (s : State) (a b : Byte), a.toNat < 8 → 8 ≤ b.toNat →
    FailsWith s (.outOfRangeAccess (.register b)) (exec (.add a b) s)) ∧
  PastTheEndFails 0xA0 2

/-- Tier 1. CMP classifies its first operand against its second, unsigned, and writes FL alone (42_alu.md
section 1, the compare classification, and section 2, CMP). The order of its errors, the operand fetch before both
registers and op1 before op2, is the spec's decisions D5 and D13 (log entries 4 and 9). What FL holds after a CMP that
fails is not read here (60_exceptions.md R103; `ErrorsArePrecise` says it). -/
def Obligations.CmpClassifiesUnsigned : Prop :=
  (∀ a b : Byte, encode (.cmp a b) = [0xA7, a, b]) ∧
  (∀ (s : State) (a b : Byte) (ha : a.toNat < 8) (hb : b.toNat < 8),
    ((s.x[a.toNat]'ha).toNat < (s.x[b.toNat]'hb).toNat →
      exec (.cmp a b) s = .next { s with fl := .lessThan, pc := s.pc + 3 }) ∧
    ((s.x[a.toNat]'ha).toNat > (s.x[b.toNat]'hb).toNat →
      exec (.cmp a b) s = .next { s with fl := .greaterThan, pc := s.pc + 3 }) ∧
    ((s.x[a.toNat]'ha).toNat = (s.x[b.toNat]'hb).toNat →
      exec (.cmp a b) s = .next { s with fl := .equal, pc := s.pc + 3 })) ∧
  (∀ (s : State) (a b : Byte), 8 ≤ a.toNat → FailsWith s (.outOfRangeAccess (.register a)) (exec (.cmp a b) s)) ∧
  (∀ (s : State) (a b : Byte), a.toNat < 8 → 8 ≤ b.toNat →
    FailsWith s (.outOfRangeAccess (.register b)) (exec (.cmp a b) s)) ∧
  PastTheEndFails 0xA7 2

/-- Tier 1. PUSH (43_stack.md, PUSH): SP is decremented modulo 256, the register is read after that, and the byte at the
new SP alone changes. For R7 the order is the spec's decision D6 (log entry 5): the new SP is stored. -/
def Obligations.PushStoresAtNewSp : Prop :=
  (∀ r : Byte, encode (.push r) = [0x45, r]) ∧
  (∀ (s : State) (r : Byte) (h : r.toNat < 8), ∃ t, exec (.push r) s = .next t ∧
    t.x = s.x.set 7 (s.x[7] - 1) ∧
    (∀ a, t.mem.read a =
      if a = (s.x[7] - 1).toNat then (s.x.set 7 (s.x[7] - 1))[r.toNat]'h else s.mem.read a) ∧
    t.pc = s.pc + 2 ∧ t.fl = s.fl ∧ t.state = s.state ∧ t.err = s.err ∧ t.out = s.out) ∧
  (∀ (s : State) (r : Byte), 8 ≤ r.toNat → FailsWith s (.outOfRangeAccess (.register r)) (exec (.push r) s)) ∧
  PastTheEndFails 0x45 1

/-- Tier 1. POP (43_stack.md, POP): the byte at SP goes to the register, and then SP, read after that write, is
incremented modulo 256; memory does not change. For R7 the order is the spec's decision D6 (log entry 5). -/
def Obligations.PopLoadsThenIncrementsSp : Prop :=
  (∀ r : Byte, encode (.pop r) = [0x46, r]) ∧
  (∀ (s : State) (r : Byte) (h : r.toNat < 8),
    let loaded := s.x.set r.toNat (s.mem.read s.x[7].toNat) h
    exec (.pop r) s = .next { s with x := loaded.set 7 (loaded[7] + 1), pc := s.pc + 2 }) ∧
  (∀ (s : State) (r : Byte), 8 ≤ r.toNat → FailsWith s (.outOfRangeAccess (.register r)) (exec (.pop r) s)) ∧
  PastTheEndFails 0x46 1

/-- Tier 1. CALL (44_control.md, CALL): SP is decremented, `pc + 2` is stored at the new SP, and the target is read
after that. A return address that is no byte fails before the register is looked at, and at address 255 the operand
fetch fails before either: decisions D4, D5, D6 and D13 of the spec (log entries 3, 4, 5, 9). -/
def Obligations.CallPushesReturnAddress : Prop :=
  (∀ r : Byte, encode (.call r) = [0x50, r]) ∧
  (∀ (s : State) (r : Byte) (h : r.toNat < 8), s.pc + 2 < 256 → ∃ t, exec (.call r) s = .next t ∧
    t.x = s.x.set 7 (s.x[7] - 1) ∧
    (∀ a, t.mem.read a = if a = (s.x[7] - 1).toNat then BitVec.ofNat 8 (s.pc + 2) else s.mem.read a) ∧
    t.pc = ((s.x.set 7 (s.x[7] - 1))[r.toNat]'h).toNat ∧
    t.fl = s.fl ∧ t.state = s.state ∧ t.err = s.err ∧ t.out = s.out) ∧
  (∀ (s : State) (r : Byte), 256 ≤ s.pc + 2 →
    FailsWith s (.outOfRangeAccess (.value (s.pc + 2))) (exec (.call r) s)) ∧
  (∀ (s : State) (r : Byte), s.pc + 2 < 256 → 8 ≤ r.toNat →
    FailsWith s (.outOfRangeAccess (.register r)) (exec (.call r) s)) ∧
  PastTheEndFails 0x50 1

/-- Tier 1. RET (44_control.md, RET): the target is the byte at SP, and SP is incremented modulo 256. It reads no operand
byte, so RET at address 255 works: the spec's decision D5 (log entry 4). -/
def Obligations.RetPopsTarget : Prop :=
  encode .ret = [0x11] ∧
  (∀ s : State, exec .ret s = .next { s with x := s.x.set 7 (s.x[7] + 1), pc := (s.mem.read s.x[7].toNat).toNat }) ∧
  (∀ s : State, s.state = .running → s.pc < 256 → s.mem.read s.pc = 0x11 →
    step s = .next { s with x := s.x.set 7 (s.x[7] + 1), pc := (s.mem.read s.x[7].toNat).toNat })

/-- Tier 1. JMP (44_control.md R94). -/
def Obligations.JmpGoesToRegister : Prop :=
  (∀ r : Byte, encode (.jmp r) = [0x54, r]) ∧
  (∀ (s : State) (r : Byte) (h : r.toNat < 8), exec (.jmp r) s = .next { s with pc := (s.x[r.toNat]'h).toNat }) ∧
  (∀ (s : State) (r : Byte), 8 ≤ r.toNat → FailsWith s (.outOfRangeAccess (.register r)) (exec (.jmp r) s)) ∧
  PastTheEndFails 0x54 1

/-- Tier 1. JEQ is taken exactly when FL is EQUAL; not taken, its register byte is not looked at, but it is
fetched: at address 255 the step fails whatever FL holds (44_control.md, JEQ; the spec's decisions D16 and D5, log
entries 10 and 4). -/
def Obligations.JeqTakenIffEqual : Prop :=
  (∀ r : Byte, encode (.jeq r) = [0x55, r]) ∧
  (∀ (s : State) (r : Byte) (h : r.toNat < 8), s.fl = .equal →
    exec (.jeq r) s = .next { s with pc := (s.x[r.toNat]'h).toNat }) ∧
  (∀ (s : State) (r : Byte), s.fl ≠ .equal → exec (.jeq r) s = .next { s with pc := s.pc + 2 }) ∧
  (∀ (s : State) (r : Byte), s.fl = .equal → 8 ≤ r.toNat →
    FailsWith s (.outOfRangeAccess (.register r)) (exec (.jeq r) s)) ∧
  PastTheEndFails 0x55 1

/-- Tier 1. JNE is taken exactly when FL is not EQUAL, NONE included; not taken, its register byte is not looked at,
but it is fetched: at address 255 the step fails whatever FL holds (44_control.md, JNE; the spec's decisions D16 and D5,
log entries 10 and 4). -/
def Obligations.JneTakenIffNotEqual : Prop :=
  (∀ r : Byte, encode (.jne r) = [0x56, r]) ∧
  (∀ (s : State) (r : Byte) (h : r.toNat < 8), s.fl ≠ .equal →
    exec (.jne r) s = .next { s with pc := (s.x[r.toNat]'h).toNat }) ∧
  (∀ (s : State) (r : Byte), s.fl = .equal → exec (.jne r) s = .next { s with pc := s.pc + 2 }) ∧
  (∀ (s : State) (r : Byte), s.fl ≠ .equal → 8 ≤ r.toNat →
    FailsWith s (.outOfRangeAccess (.register r)) (exec (.jne r) s)) ∧
  PastTheEndFails 0x56 1

/-! ## Laws over several instructions -/

/-- Tier 2. `PUSH Ra; POP Ra` restores every register, SP and R7 included, and leaves the pushed byte below the stack
(43_stack.md, stack laws; for R7 it rests on decision D6, log entry 5). -/
def Obligations.PushThenPopRestores : Prop :=
  ∀ (s : State) (r : Byte) (h : r.toNat < 8), ∃ t u,
    exec (.push r) s = .next t ∧ exec (.pop r) t = .next u ∧ u.x = s.x ∧ u.pc = s.pc + 4 ∧
    u.mem.read (s.x[7] - 1).toNat = (if r.toNat = 7 then s.x[7] - 1 else s.x[r.toNat]'h) ∧
    (∀ k, k ≠ (s.x[7] - 1).toNat → u.mem.read k = s.mem.read k)

/-- Tier 2. `PUSH Ra; POP Rb`, b ≠ 7, copies `x[a]` into `x[b]` and restores SP. For a = 7 the copied byte is SP - 1, as
PUSH stores the decremented SP (43_stack.md, PUSH and stack laws; log entry 24). -/
def Obligations.PushThenPopCopies : Prop :=
  ∀ (s : State) (a b : Byte) (ha : a.toNat < 8) (hb : b.toNat < 8), b.toNat ≠ 7 → ∃ t u,
    exec (.push a) s = .next t ∧ exec (.pop b) t = .next u ∧
    u.x = s.x.set b.toNat (if a.toNat = 7 then s.x[7] - 1 else s.x[a.toNat]'ha) hb

/-- Tier 2. After N pushes of any registers SP has gone down by N modulo 256; from run entry that is 0xF4 - N
(43_stack.md, stack laws; 90_conflicts.md C7). -/
def Obligations.SpAfterPushes : Prop :=
  ∀ (rs : List Byte) (s : State), (∀ r ∈ rs, r.toNat < 8) → ∃ t, execAll (rs.map Instr.push) s = some t ∧
    (t.x[7].toNat : Int) = ((s.x[7].toNat : Int) - rs.length) % 256

/-- Tier 2. A RET that finds SP and the return byte as the CALL left them resumes after the CALL, with SP as before it;
the CALL's target register does not matter (44_control.md, CALL and RET laws, an inference of the spec's own). -/
def Obligations.RetResumesAfterCall : Prop :=
  ∀ (s t u : State) (r : Byte), r.toNat < 8 → s.pc ≤ 253 → exec (.call r) s = .next t →
    u.x[7] = t.x[7] → u.mem.read t.x[7].toNat = t.mem.read t.x[7].toNat →
    ∃ v, exec .ret u = .next v ∧ v.pc = s.pc + 2 ∧ v.x[7] = s.x[7]

/-- Tier 1. LDI then PRN on the same register emits exactly the loaded value, for all 256 values and all 8 registers
(95_test_vectors.md W6). -/
def Obligations.LdiThenPrnEmitsValue : Prop :=
  ∀ (s : State) (r v : Byte), r.toNat < 8 →
    ∃ t u, exec (.ldi r v) s = .next t ∧ exec (.prn r) t = .next u ∧ u.out = s.out ++ [v]

/-- Tier 2. Self-modifying code through the stack, for every byte: what PUSH stores, and the return address that CALL
stores, is what a jump to it fetches, and the step there runs the instruction that this byte starts, with the bytes of
memory after it as its operands; an illegal byte fails as UnknownOpcode with that byte (20_memory.md section 5, an
inference of the spec's own; 95_test_vectors.md P7). For PUSH R7 the byte is the decremented SP (decision D6, log entry
5); an instruction that would run past address 255 fails in the operand fetch (decision D5, log entry 4). -/
def Obligations.PushedByteIsExecuted : Prop :=
  ∀ (s : State) (r : Byte) (h : r.toNat < 8), s.state = .running →
    (∃ t u, exec (.push r) s = .next t ∧ exec (.jmp 7) t = .next u ∧ u.pc = (s.x[7] - 1).toNat ∧
      u.mem.read u.pc = (s.x.set 7 (s.x[7] - 1))[r.toNat]'h ∧
      StepRuns u ((s.x.set 7 (s.x[7] - 1))[r.toNat]'h :: s.bytesFrom (u.pc + 1) 2)) ∧
    (s.pc + 2 < 256 →
      ∃ t u, exec (.call r) s = .next t ∧ exec (.jmp 7) t = .next u ∧ u.pc = (s.x[7] - 1).toNat ∧
        u.mem.read u.pc = BitVec.ofNat 8 (s.pc + 2) ∧
        StepRuns u (BitVec.ofNat 8 (s.pc + 2) :: s.bytesFrom (u.pc + 1) 2))

/-! ## Frames and whole-machine rules over all instructions -/

/-- Tier 2. The frame of all 13 instructions, when they do not fail: a register is written only as a destination operand
or as the SP of PUSH, POP, CALL and RET; FL only by CMP; memory only by PUSH and CALL and only the byte they push;
`out` only by PRN; `state` only by HLT; `err` by none (10_state.md sections 1, 3 and 5; 20_memory.md section 1). -/
def Obligations.EveryInstructionHasItsFrame : Prop :=
  ∀ (i : Instr) (s t : State), exec i s = .next t → t.state ≠ .failed →
    (∀ k : Fin 8, k.val ∉ destinations i → t.x[k] = s.x[k]) ∧
    ((∀ a b, i ≠ .cmp a b) → t.fl = s.fl) ∧
    (∀ a, (∀ r, i ≠ .push r ∧ i ≠ .call r) ∨ a ≠ s.pushAddr → t.mem.read a = s.mem.read a) ∧
    ((∀ r, i ≠ .prn r) → t.out = s.out) ∧
    (i ≠ .hlt → t.state = s.state) ∧
    t.err = s.err

/-- Tier 2. Only CMP writes FL, and only JEQ and JNE read it: any other instruction does the same whatever FL holds,
failing or not, and the FL that a CMP writes does not depend on the FL it finds (10_state.md R25). -/
def Obligations.OnlyBranchesReadFlags : Prop :=
  ∀ (i : Instr) (s t : State), exec i s = .next t →
    ((∀ a b, i ≠ .cmp a b) → t.state ≠ .failed → t.fl = s.fl) ∧
    ((∀ r, i ≠ .jeq r ∧ i ≠ .jne r) → ∀ f : Flags, ∃ u, exec i { s with fl := f } = .next u ∧
      u.state = t.state ∧ u.err = t.err ∧ u.out = t.out ∧
      (t.state ≠ .failed → u.x = t.x ∧ u.mem = t.mem ∧ u.pc = t.pc ∧
        ((∃ a b, i = .cmp a b) → u.fl = t.fl)))

/-- Tier 2. R0 to R6 have no implicit role: changing one that no operand byte names changes nothing else of what an
instruction does. Of a failed instruction only `state`, `err` and `out` are compared (10_state.md section 1, an inference
of the spec's own; 60_exceptions.md section 1). -/
def Obligations.UnnamedRegistersDoNotMatter : Prop :=
  ∀ (i : Instr) (s t : State) (k : Fin 8) (v : Byte), k ≠ 7 → (∀ r ∈ i.registerOperands, r.toNat ≠ k.val) →
    exec i s = .next t → ∃ u, exec i { s with x := s.x.set k v } = .next u ∧
      u.state = t.state ∧ u.err = t.err ∧ u.out = t.out ∧
      (t.state ≠ .failed → u.x = t.x.set k v ∧ u.mem = t.mem ∧ u.pc = t.pc ∧ u.fl = t.fl)

/-- Tier 2. The new `pc` of each completed instruction: unchanged by HLT; the register, as read after CALL's decrement
of SP, for CALL, JMP and a branch taken; the popped byte for RET; `pc` plus the length otherwise, never reduced modulo
256 (40_execution_cycle.md sections 1 and 2; the sum not reduced is decision D2, HLT is D12 and CALL R7 is
D6: log entries 1, 8 and 5). -/
def Obligations.SequencerWritesPc : Prop :=
  ∀ (i : Instr) (s t : State), exec i s = .next t → t.state ≠ .failed →
    match i with
    | .hlt => t.pc = s.pc
    | .ldi _ _ | .mul _ _ | .add _ _ | .cmp _ _ => t.pc = s.pc + 3
    | .prn _ | .push _ | .pop _ => t.pc = s.pc + 2
    | .call r => ∃ h : r.toNat < 8, t.pc = ((s.x.set 7 (s.x[7] - 1))[r.toNat]'h).toNat
    | .ret => t.pc = (s.mem.read s.x[7].toNat).toNat
    | .jmp r => ∃ h : r.toNat < 8, t.pc = (s.x[r.toNat]'h).toNat
    | .jeq r => if s.fl = .equal then ∃ h : r.toNat < 8, t.pc = (s.x[r.toNat]'h).toNat else t.pc = s.pc + 2
    | .jne r => if s.fl = .equal then t.pc = s.pc + 2 else ∃ h : r.toNat < 8, t.pc = (s.x[r.toNat]'h).toNat

/-- Tier 2. An instruction whose register operands all name registers completes, from any state, except a CALL whose
return address is no byte: nothing else in a handler can fail (60_exceptions.md section 1, an inference of the spec's
own; the CALL by decision D4, log entry 3). -/
def Obligations.WellFormedInstructionsComplete : Prop :=
  ∀ (i : Instr) (s : State), i.wellFormed = true → (∀ r, i = .call r → s.pc + 2 < 256) → s.state = .running →
    ∃ t, exec i s = .next t ∧ (t.state = .running ∨ (t.state = .halted ∧ i = .hlt)) ∧ t.err = s.err

/-! ## The step -/

/-- Tier 1. When the bytes at `pc` decode to an instruction, the step is that instruction's meaning at that state, with
nothing around it (40_execution_cycle.md sections 1 and 3). That a one-byte instruction runs at address 255 and a
two-byte one at 254, with no byte read past its own, is the spec's decision D5 (log entry 4). -/
def Obligations.StepRunsDecodedInstruction : Prop :=
  ∀ (s : State) (i : Instr) (rest : List Byte), s.state = .running → decode (s.bytesFrom s.pc 3) = .ok (i, rest) →
    step s = exec i s

/-- Tier 2. An instruction whose encoding stands in memory at `pc` is the one the step runs, wherever it fits
(30_encoding.md section 1; 40_execution_cycle.md section 1). That one of one or two bytes that ends at address 255 fits,
with no byte read past its own, is the spec's decision D5 (log entry 4). -/
def Obligations.StepRunsEncodedInstruction : Prop :=
  ∀ (s : State) (i : Instr), s.state = .running → s.pc + i.length ≤ 256 →
    (∀ (k : Nat) (h : k < (encode i).length), s.mem.read (s.pc + k) = (encode i)[k]) → step s = exec i s

/-- Tier 2. The engine has a step exactly while RUNNING (40_execution_cycle.md R62). -/
def Obligations.StepsExactlyWhileRunning : Prop :=
  ∀ s : State, (∃ t, step s = .next t) ↔ s.state = .running

/-- Tier 1. An opcode fetch past address 255 fails with the address (40_execution_cycle.md R64). -/
def Obligations.FetchOutsideMemoryFails : Prop :=
  ∀ s : State, s.state = .running → 256 ≤ s.pc → FailsWith s (.outOfRangeAccess (.memory s.pc)) (step s)

/-- Tier 2. A byte that is none of the 13 opcodes fails as UnknownOpcode with the byte, wherever it stands and before any
operand fetch; 243 bytes are so, 0x00 among them (30_encoding.md R57, 40_execution_cycle.md R65). -/
def Obligations.UnknownOpcodeFails : Prop :=
  (∀ s : State, s.state = .running → s.pc < 256 →
    s.mem.read s.pc ∉ ([0x01, 0x82, 0x47, 0xA2, 0xA0, 0xA7, 0x45, 0x46, 0x50, 0x11, 0x54, 0x55, 0x56] : List Byte) →
    FailsWith s (.unknownOpcode (s.mem.read s.pc)) (step s)) ∧
  ((List.range 256).filter fun n => (decodeOpcode (BitVec.ofNat 8 n)).isNone).length = 243 ∧
  decodeOpcode 0x00 = none

/-- Tier 2. An instruction that would run past address 255 fails at the operand byte at address 256, even when its
handler would not use it (40_execution_cycle.md section 1, operand fetch: decision D5, log entry 4). -/
def Obligations.OperandFetchPastMemoryFails : Prop :=
  ∀ (s : State) (i : Instr), s.state = .running → s.pc < 256 → s.mem.read s.pc = i.opcodeByte → 256 < s.pc + i.length →
    FailsWith s (.outOfRangeAccess (.memory 256)) (step s)

/-- Tier 2. What an error does: the failing step writes FAILED and the record with its own pc, and nothing else
(60_exceptions.md section 1, R102: decisions D7 and D8 of the spec, log entries 6 and 7). This formalises that rule; R103
asks that no claim about a run rest on it, and no other statement does. -/
def Obligations.ErrorsArePrecise : Prop :=
  ∀ s t : State, s.state = .running → step s = .next t → t.state = .failed →
    ∃ e, t = { s with state := .failed, err := some ⟨e, s.pc⟩ }

/-- Tier 2. No program raises UnsupportedOperation, and none raises LoadError: a step that fails records
OutOfRangeAccess or UnknownOpcode (42_alu.md section 1 and 60_exceptions.md section 1, inferences of the spec's own). -/
def Obligations.StepsRaiseTwoKinds : Prop :=
  ∀ s t : State, s.state = .running → step s = .next t → t.state = .failed →
    ∃ r, t.err = some r ∧ r.pc = s.pc ∧ t.out = s.out ∧
      (r.error.kind = .outOfRangeAccess ∨ r.error.kind = .unknownOpcode)

/-- Tier 1. The numeric codes of the error record: that of a recorded error is the code of its kind, 1 to 4, and that of
an empty record is 0 (60_exceptions.md section 1, the spec's decision D8, log entry 7). -/
def Obligations.ErrorCodesAreNumbered : Prop :=
  ErrorKind.outOfRangeAccess.code = 1 ∧ ErrorKind.unsupportedOperation.code = 2 ∧ ErrorKind.unknownOpcode.code = 3 ∧
  ErrorKind.loadError.code = 4 ∧
  (∀ what, (MachineError.outOfRangeAccess what).kind = .outOfRangeAccess) ∧
  (∀ op, (MachineError.unsupportedOperation op).kind = .unsupportedOperation) ∧
  (∀ b, (MachineError.unknownOpcode b).kind = .unknownOpcode) ∧
  (∀ reason, (MachineError.loadError reason).kind = .loadError) ∧
  (∀ s : State, s.err = none → s.errCode = 0) ∧
  (∀ (s : State) (r : ErrorRecord), s.err = some r → s.errCode = r.error.kind.code)

/-- Tier 2. Nothing removes or changes an emitted byte, and a step emits at most one, whether it fails or not
(10_state.md section 5). -/
def Obligations.OutputOnlyGrows : Prop :=
  ∀ s t : State, step s = .next t → ∃ emitted : List Byte, emitted.length ≤ 1 ∧ t.out = s.out ++ emitted

/-! ## Construction, load, run and the state machine -/

/-- Tier 1. Construction (70_reset_and_hazards.md section 1; FL = NONE is the spec's decision D3, log entry 2). -/
def Obligations.ResetIsConstruction : Prop :=
  (∀ a, State.reset.mem.read a = 0) ∧ (∀ k : Fin 8, State.reset.x[k] = 0) ∧ State.reset.pc = 0 ∧
  State.reset.fl = .none ∧ State.reset.state = .notStarted ∧ State.reset.err = none ∧ State.reset.out = []

/-- Tier 2. An accepted Load resets all state and writes the image from address 0; an image that cannot be produced or
is longer than 256 bytes leaves FAILED with a LoadError at pc 0 and nothing emitted (70_reset_and_hazards.md section 1;
the failing cases are the spec's decision D17, log entry 11). -/
def Obligations.LoadWritesImage : Prop :=
  ∀ s : State, s.state ≠ .running →
    (∀ image : List Byte, image.length ≤ 256 → ∃ t, hostLoad (.image image) s = .next t ∧
      (∀ (k : Nat) (h : k < image.length), t.mem.read k = image[k]) ∧
      (∀ k, image.length ≤ k → t.mem.read k = 0) ∧ t.mem.wf = true ∧
      t.x = Vector.replicate 8 0 ∧ t.pc = 0 ∧ t.fl = .none ∧ t.state = .notStarted ∧ t.err = none ∧ t.out = []) ∧
    (∀ image : List Byte, 256 < image.length → ∃ t, hostLoad (.image image) s = .next t ∧
      t.state = .failed ∧ t.err = some ⟨.loadError .tooLong, 0⟩ ∧ t.out = []) ∧
    (∃ t, hostLoad .unreadable s = .next t ∧
      t.state = .failed ∧ t.err = some ⟨.loadError .unreadable, 0⟩ ∧ t.out = []) ∧
    (∃ t, hostLoad .malformed s = .next t ∧
      t.state = .failed ∧ t.err = some ⟨.loadError .malformed, 0⟩ ∧ t.out = [])

/-- Tier 1. Run in NOT_STARTED is run entry: SP = 0xF4, RUNNING, nothing else (70_reset_and_hazards.md R114). -/
def Obligations.RunEntrySetsSp : Prop :=
  ∀ s : State, s.state = .notStarted → hostRun s = .next { s with x := s.x.set 7 0xF4, state := .running }

/-- Tier 2. The state right after Load and Run, for every image that fits: image then zeros, R0 to R6 zero, SP 0xF4,
pc 0, FL NONE, RUNNING, no error, nothing emitted; its first step fetches at address 0 (70_reset_and_hazards.md
section 1, an inference of the spec's own; FL by D3, log entry 2). -/
def Obligations.BringUpIsComplete : Prop :=
  ∀ (s : State) (image : List Byte), s.state ≠ .running → image.length ≤ 256 → ∃ t u,
    hostLoad (.image image) s = .next t ∧ hostRun t = .next u ∧
    (∀ k, u.mem.read k = if h : k < image.length then image[k] else 0) ∧
    (∀ k : Fin 8, u.x[k] = if k = 7 then 0xF4 else 0) ∧
    u.pc = 0 ∧ u.fl = .none ∧ u.state = .running ∧ u.err = none ∧ u.out = []

/-- Tier 1. The host has no move while RUNNING: both actions are refused by name (10_state.md section 7 and
93_implementation_defined.md I14; the spec's decision D11, log entry 13). -/
def Obligations.HostHasNoMoveWhileRunning : Prop :=
  ∀ s : State, s.state = .running →
    hostRun s = .refused .hostActionWhileRunning ∧ ∀ q, hostLoad q s = .refused .hostActionWhileRunning

/-- Tier 1. HALTED and FAILED are terminal: no step, Run has no effect, and only a Load leaves them, which it does by
starting anew (40_execution_cycle.md section 4). That Run has no effect is the spec's decision D11 (log entry 12). -/
def Obligations.EndedRunsAreTerminal : Prop :=
  ∀ s : State, Ended s →
    (∀ t, step s ≠ .next t) ∧ hostRun s = .next s ∧ (∀ (e : Event) (t : State), act e s = .next t → t ≠ s → ∃ q, e = .load q) ∧
    (∀ q, ∃ t, hostLoad q s = .next t)

/-- Tier 2. The transitions of `state`, event by event, and no other (40_execution_cycle.md section 4; Run in HALTED and
FAILED is the spec's decision D11, a failed Load D17: log entries 11 and 12). -/
def Obligations.RunStateTransitions : Prop :=
  ∀ (e : Event) (s t : State), act e s = .next t →
    match e with
    | .load _ => s.state ≠ .running ∧
        ((t.state = .notStarted ∧ t.err = none) ∨ (t.state = .failed ∧ ∃ reason, t.err = some ⟨.loadError reason, 0⟩))
    | .run => (s.state = .notStarted ∧ t.state = .running ∧ t.x[7] = 0xF4) ∨ (Ended s ∧ t = s)
    | .step => s.state = .running ∧
        (t.state = .running ∨ (t.state = .halted ∧ s.mem.read s.pc = 0x01) ∨
          (t.state = .failed ∧ ∃ e, t.err = some ⟨e, s.pc⟩))

/-! ## The invariant -/

/-- Tier 1. The invariant holds after construction (70_reset_and_hazards.md section 1). Its clause `fresh` says FL = NONE
there by the spec's decision D3 (log entry 2). -/
def Obligations.ConstructionMeetsInv : Prop := Inv State.reset

/-- Tier 3. Every step keeps the invariant: canonical memory, `pc` in [0,256], an error record exactly in FAILED, fresh
state until run entry, and in HALTED `pc` at the HLT opcode (20_memory.md section 1, 10_state.md sections 2 and 4,
40_execution_cycle.md sections 2 and 4; the last rests on decision D12, log entry 8, and the
bound on `pc`, which holds 256 unreduced and no more, on decisions D2 and D5, log entries 1 and 4). -/
def Obligations.StepKeepsInv : Prop :=
  ∀ s t : State, Inv s → step s = .next t → Inv t

/-- Tier 2. The host's actions keep the invariant, and a Load establishes it whatever came before
(70_reset_and_hazards.md section 1). Its clause `fresh` says FL = NONE after a Load by the spec's decision D3 (log
entry 2). -/
def Obligations.HostActionsKeepInv : Prop :=
  (∀ (q : LoadRequest) (s t : State), hostLoad q s = .next t → Inv t) ∧
  (∀ s t : State, Inv s → hostRun s = .next t → Inv t)

/-- Tier 2. Every state that construction, loads, runs and steps lead to meets the invariant, and while it is RUNNING the
machine never stops: its step has a next state, in which it is running, halted or failed (10_state.md sections 2 and 4,
40_execution_cycle.md sections 1, 2 and 4). Of the invariant's clauses `halted_at` reads `pc` in HALTED and rests on the
spec's decision D12 (log entry 8), `fresh` says FL = NONE by D3 (log entry 2), and the bound on `pc` rests on D2 and D5
(log entries 1 and 4). -/
def Obligations.ReachableStatesAreSound : Prop :=
  ∀ s : State, Reachable s → Inv s ∧
    (s.state = .running → ∃ t, step s = .next t ∧ t.state ≠ .notStarted)
end

