-- ==== Sys2Proof/Laws/Memory.lean ====
section
/-! SUPPORT. The laws of the memory array: read after write, the canonical form, and extensionality. The first needs no
hypothesis on the list, so no later proof carries one. -/

namespace Sys2Proof.Machine

@[simp] theorem Memory.read_nil (a : Nat) : Memory.read [] a = 0 := rfl

theorem Memory.read_cons (k : Nat) (v : Byte) (m : Memory) (a : Nat) :
    Memory.read ((k, v) :: m) a = if k = a then v else Memory.read m a := rfl

theorem Memory.read_erase (m : Memory) (a k : Nat) :
    Memory.read (m.erase a) k = if k = a then 0 else Memory.read m k := by
  induction m with
  | nil => simp [Memory.erase]
  | cons c m ih =>
    obtain ⟨j, v⟩ := c
    unfold Memory.erase at ih ⊢
    by_cases hj : j = a
    · subst hj
      simp only [List.filter_cons, bne_self_eq_false, Bool.false_eq_true, if_false, ih, Memory.read_cons]
      by_cases hk : k = j <;> simp [hk, eq_comm]
    · have : (j != a) = true := by simpa using hj
      simp only [List.filter_cons, this, if_true, Memory.read_cons, ih]
      by_cases hjk : j = k
      · subst hjk; simp [hj]
      · simp [hjk]

theorem Memory.erase_absent (m : Memory) (a : Nat) : ∀ c ∈ m.erase a, c.1 ≠ a := by
  intro c hc
  simp [Memory.erase] at hc
  exact hc.2

theorem Memory.read_insert (m : Memory) (a : Nat) (b : Byte) (h : ∀ c ∈ m, c.1 ≠ a) (k : Nat) :
    Memory.read (Memory.insert m a b) k = if k = a then b else Memory.read m k := by
  induction m with
  | nil => simp [Memory.insert, Memory.read_cons, eq_comm]
  | cons c m ih =>
    obtain ⟨j, v⟩ := c
    have hj : j ≠ a := h (j, v) (by simp)
    have ih := ih fun c hc => h c (by simp [hc])
    unfold Memory.insert
    split
    · simp [Memory.read_cons, eq_comm]
    · simp only [Memory.read_cons, ih]
      by_cases hjk : j = k
      · subst hjk; simp [hj]
      · simp [hjk]

/-- Read after write: the written address gives the written byte, every other address is as before (R45). -/
@[simp] theorem Memory.read_write (m : Memory) (a : Nat) (b : Byte) (k : Nat) :
    (m.write a b).read k = if k = a then b else m.read k := by
  unfold Memory.write
  split
  · next h => rw [h, Memory.read_erase]; rfl
  · rw [Memory.read_insert _ _ _ (m.erase_absent a), Memory.read_erase]
    split <;> rfl

/-! ## The canonical form -/

theorem Memory.wf_cons (k : Nat) (v : Byte) (m : Memory) :
    Memory.wf ((k, v) :: m) = true ↔ k < 256 ∧ v ≠ 0 ∧ (∀ c ∈ m, k < c.1) ∧ Memory.wf m = true := by
  simp [Memory.wf, Config.memReset, and_assoc]

theorem Memory.wf_erase (m : Memory) (a : Nat) (h : m.wf = true) : (m.erase a).wf = true := by
  induction m with
  | nil => simpa [Memory.erase] using h
  | cons c m ih =>
    obtain ⟨k, v⟩ := c
    obtain ⟨hk, hv, hm, hw⟩ := (Memory.wf_cons k v m).1 h
    have ih := ih hw
    unfold Memory.erase at ih ⊢
    rw [List.filter_cons]
    split
    · exact (Memory.wf_cons _ _ _).2 ⟨hk, hv, fun c hc => hm c (List.mem_filter.1 hc).1, ih⟩
    · exact ih

theorem Memory.mem_insert {m : Memory} {a : Nat} {b : Byte} {c : Host.Cell} (h : c ∈ Memory.insert m a b) :
    c = (a, b) ∨ c ∈ m := by
  induction m with
  | nil => simpa [Memory.insert] using h
  | cons d m ih =>
    obtain ⟨k, v⟩ := d
    unfold Memory.insert at h
    split at h
    · simpa using h
    · rcases List.mem_cons.1 h with h | h
      · simp [h]
      · rcases ih h with h | h <;> simp [h]

theorem Memory.wf_insert (m : Memory) (a : Nat) (b : Byte) (hm : m.wf = true) (ha : a < 256) (hb : b ≠ 0)
    (h : ∀ c ∈ m, c.1 ≠ a) : (Memory.insert m a b).wf = true := by
  induction m with
  | nil => exact (Memory.wf_cons _ _ _).2 ⟨ha, hb, by simp, rfl⟩
  | cons c m ih =>
    obtain ⟨k, v⟩ := c
    obtain ⟨hk, hv, hs, hw⟩ := (Memory.wf_cons k v m).1 hm
    have hka : k ≠ a := h (k, v) (by simp)
    unfold Memory.insert
    split
    · next hlt =>
      refine (Memory.wf_cons _ _ _).2 ⟨ha, hb, fun c hc => ?_, hm⟩
      rcases List.mem_cons.1 hc with rfl | hc
      · exact hlt
      · exact Nat.lt_trans hlt (hs c hc)
    · next hge =>
      refine (Memory.wf_cons _ _ _).2 ⟨hk, hv, fun c hc => ?_, ih hw fun c hc => h c (by simp [hc])⟩
      rcases Memory.mem_insert hc with rfl | hc
      · exact Nat.lt_of_le_of_ne (Nat.le_of_not_lt hge) hka
      · exact hs c hc

/-- A write inside memory keeps the canonical form. -/
theorem Memory.wf_write (m : Memory) (a : Nat) (b : Byte) (hm : m.wf = true) (ha : a < 256) :
    (m.write a b).wf = true := by
  unfold Memory.write
  split
  · exact m.wf_erase a hm
  · next hb => exact Memory.wf_insert _ _ _ (m.wf_erase a hm) ha hb (m.erase_absent a)

/-- Placing bytes keeps the canonical form. -/
theorem Memory.wf_writeBytes (bs : List Byte) (m : Memory) (a : Nat) (hm : m.wf = true) :
    (m.writeBytes a bs).wf = true := by
  induction bs generalizing m a with
  | nil => exact hm
  | cons b bs ih =>
    unfold Memory.writeBytes
    split
    · next ha => exact ih _ _ (m.wf_write a b hm ha)
    · exact ih _ _ hm

/-- What placing bytes does to one address. -/
theorem Memory.read_writeBytes (bs : List Byte) (m : Memory) (a k : Nat) :
    (m.writeBytes a bs).read k =
      if a ≤ k ∧ k < a + bs.length ∧ k < 256 then bs.getD (k - a) 0 else m.read k := by
  induction bs generalizing m a with
  | nil => simp [Memory.writeBytes]; omega
  | cons b bs ih =>
    simp only [Memory.writeBytes, ih, List.length_cons]
    by_cases h1 : a + 1 ≤ k ∧ k < a + 1 + bs.length ∧ k < 256
    · have h2 : a ≤ k ∧ k < a + (bs.length + 1) ∧ k < 256 := by omega
      obtain ⟨j, rfl⟩ := Nat.exists_eq_add_of_le h1.1
      simp only [if_pos h1, if_pos h2]
      have e1 : a + 1 + j - (a + 1) = j := by omega
      have e2 : a + 1 + j - a = j + 1 := by omega
      rw [e1, e2]; rfl
    · rw [if_neg h1]
      by_cases hk : k = a
      · subst hk
        by_cases ha : k < 256
        · simp [ha]
        · simp [ha]
      · have h2 : ¬ (a ≤ k ∧ k < a + (bs.length + 1) ∧ k < 256) := by omega
        rw [if_neg h2]
        split <;> simp [hk]

/-- The listed addresses are the ones below the first: nothing below the first listed address is set. -/
theorem Memory.read_of_lt_all {m : Memory} {a : Nat} (h : ∀ c ∈ m, a < c.1) : m.read a = 0 := by
  induction m with
  | nil => rfl
  | cons c m ih =>
    obtain ⟨k, v⟩ := c
    have hk : a < k := h (k, v) (by simp)
    rw [Memory.read_cons, if_neg (by omega)]
    exact ih fun c hc => h c (by simp [hc])

end Sys2Proof.Machine
end

