-- ==== Sys2Proof/Laws/State.lean ====
section
/-! SUPPORT. One lemma per field per named update of State, each true by rfl. -/

namespace Sys2Proof.Machine

@[simp] theorem State.setPc_mem (s : State) (n : Nat) : (s.setPc n).mem = s.mem := rfl
@[simp] theorem State.setPc_x (s : State) (n : Nat) : (s.setPc n).x = s.x := rfl
@[simp] theorem State.setPc_pc (s : State) (n : Nat) : (s.setPc n).pc = n := rfl
@[simp] theorem State.setPc_fl (s : State) (n : Nat) : (s.setPc n).fl = s.fl := rfl
@[simp] theorem State.setPc_state (s : State) (n : Nat) : (s.setPc n).state = s.state := rfl
@[simp] theorem State.setPc_err (s : State) (n : Nat) : (s.setPc n).err = s.err := rfl
@[simp] theorem State.setPc_out (s : State) (n : Nat) : (s.setPc n).out = s.out := rfl

@[simp] theorem State.setReg_mem (s : State) (i : Fin 8) (v : Byte) : (s.setReg i v).mem = s.mem := rfl
@[simp] theorem State.setReg_x (s : State) (i : Fin 8) (v : Byte) : (s.setReg i v).x = s.x.set i v := rfl
@[simp] theorem State.setReg_pc (s : State) (i : Fin 8) (v : Byte) : (s.setReg i v).pc = s.pc := rfl
@[simp] theorem State.setReg_fl (s : State) (i : Fin 8) (v : Byte) : (s.setReg i v).fl = s.fl := rfl
@[simp] theorem State.setReg_state (s : State) (i : Fin 8) (v : Byte) : (s.setReg i v).state = s.state := rfl
@[simp] theorem State.setReg_err (s : State) (i : Fin 8) (v : Byte) : (s.setReg i v).err = s.err := rfl
@[simp] theorem State.setReg_out (s : State) (i : Fin 8) (v : Byte) : (s.setReg i v).out = s.out := rfl

@[simp] theorem State.setMem_mem (s : State) (m : Memory) : (s.setMem m).mem = m := rfl
@[simp] theorem State.setMem_x (s : State) (m : Memory) : (s.setMem m).x = s.x := rfl
@[simp] theorem State.setMem_pc (s : State) (m : Memory) : (s.setMem m).pc = s.pc := rfl
@[simp] theorem State.setMem_fl (s : State) (m : Memory) : (s.setMem m).fl = s.fl := rfl
@[simp] theorem State.setMem_state (s : State) (m : Memory) : (s.setMem m).state = s.state := rfl
@[simp] theorem State.setMem_err (s : State) (m : Memory) : (s.setMem m).err = s.err := rfl
@[simp] theorem State.setMem_out (s : State) (m : Memory) : (s.setMem m).out = s.out := rfl

@[simp] theorem State.setFl_mem (s : State) (f : Flags) : (s.setFl f).mem = s.mem := rfl
@[simp] theorem State.setFl_x (s : State) (f : Flags) : (s.setFl f).x = s.x := rfl
@[simp] theorem State.setFl_pc (s : State) (f : Flags) : (s.setFl f).pc = s.pc := rfl
@[simp] theorem State.setFl_fl (s : State) (f : Flags) : (s.setFl f).fl = f := rfl
@[simp] theorem State.setFl_state (s : State) (f : Flags) : (s.setFl f).state = s.state := rfl
@[simp] theorem State.setFl_err (s : State) (f : Flags) : (s.setFl f).err = s.err := rfl
@[simp] theorem State.setFl_out (s : State) (f : Flags) : (s.setFl f).out = s.out := rfl

@[simp] theorem State.halt_mem (s : State) : (s.halt).mem = s.mem := rfl
@[simp] theorem State.halt_x (s : State) : (s.halt).x = s.x := rfl
@[simp] theorem State.halt_pc (s : State) : (s.halt).pc = s.pc := rfl
@[simp] theorem State.halt_fl (s : State) : (s.halt).fl = s.fl := rfl
@[simp] theorem State.halt_state (s : State) : (s.halt).state = .halted := rfl
@[simp] theorem State.halt_err (s : State) : (s.halt).err = s.err := rfl
@[simp] theorem State.halt_out (s : State) : (s.halt).out = s.out := rfl

@[simp] theorem State.output_mem (s : State) (v : Byte) : (s.output v).mem = s.mem := rfl
@[simp] theorem State.output_x (s : State) (v : Byte) : (s.output v).x = s.x := rfl
@[simp] theorem State.output_pc (s : State) (v : Byte) : (s.output v).pc = s.pc := rfl
@[simp] theorem State.output_fl (s : State) (v : Byte) : (s.output v).fl = s.fl := rfl
@[simp] theorem State.output_state (s : State) (v : Byte) : (s.output v).state = s.state := rfl
@[simp] theorem State.output_err (s : State) (v : Byte) : (s.output v).err = s.err := rfl
@[simp] theorem State.output_out (s : State) (v : Byte) : (s.output v).out = s.out ++ [v] := rfl

@[simp] theorem State.raise_mem (s : State) (e : MachineError) : (s.raise e).mem = s.mem := rfl
@[simp] theorem State.raise_x (s : State) (e : MachineError) : (s.raise e).x = s.x := rfl
@[simp] theorem State.raise_pc (s : State) (e : MachineError) : (s.raise e).pc = s.pc := rfl
@[simp] theorem State.raise_fl (s : State) (e : MachineError) : (s.raise e).fl = s.fl := rfl
@[simp] theorem State.raise_state (s : State) (e : MachineError) : (s.raise e).state = .failed := rfl
@[simp] theorem State.raise_err (s : State) (e : MachineError) : (s.raise e).err = some ⟨e, s.pc⟩ := rfl
@[simp] theorem State.raise_out (s : State) (e : MachineError) : (s.raise e).out = s.out := rfl

@[simp] theorem State.runEntry_mem (s : State) : (s.runEntry).mem = s.mem := rfl
@[simp] theorem State.runEntry_x (s : State) : (s.runEntry).x = s.x.set 7 Config.spInit := rfl
@[simp] theorem State.runEntry_pc (s : State) : (s.runEntry).pc = s.pc := rfl
@[simp] theorem State.runEntry_fl (s : State) : (s.runEntry).fl = s.fl := rfl
@[simp] theorem State.runEntry_state (s : State) : (s.runEntry).state = .running := rfl
@[simp] theorem State.runEntry_err (s : State) : (s.runEntry).err = s.err := rfl
@[simp] theorem State.runEntry_out (s : State) : (s.runEntry).out = s.out := rfl

end Sys2Proof.Machine
end

