-- ==== Sys2Proof/Laws/Ops.lean ====
section
/-! SUPPORT. One lemma per shared operation that says what it does; later proofs cite these and do not unfold. -/

namespace Sys2Proof.Machine

@[simp] theorem u8_toNat (b : Byte) : u8 b.toNat = b := by simp [u8]

theorem toNat_u8 (v : Nat) : (u8 v).toNat = v % 256 := by simp [u8]

/-! ## Access primitives -/

theorem State.memRead_of_lt (s : State) {a : Nat} (h : a < 256) : s.memRead a = .ok (s.mem.read a) := if_pos h

theorem State.memRead_of_ge (s : State) {a : Nat} (h : 256 ≤ a) :
    s.memRead a = .error (.outOfRangeAccess (.memory a)) := if_neg (Nat.not_lt.2 h)

theorem State.memWrite_of_lt (s : State) {a v : Nat} (ha : a < 256) (hv : v < 256) :
    s.memWrite a v = .ok (s.setMem (s.mem.write a (u8 v))) := by simp [State.memWrite, ha, hv]

theorem State.memWrite_value (s : State) {a v : Nat} (ha : a < 256) (hv : 256 ≤ v) :
    s.memWrite a v = .error (.outOfRangeAccess (.value v)) := by
  simp [State.memWrite, ha, Nat.not_lt.2 hv]

/-! ## Register operands -/

theorem State.readReg_of_lt (s : State) {r : Byte} (h : r.toNat < 8) : s.readReg r = .ok (s.x[r.toNat]'h) := dif_pos h

theorem State.readReg_of_ge (s : State) {r : Byte} (h : 8 ≤ r.toNat) :
    s.readReg r = .error (.outOfRangeAccess (.register r)) := dif_neg (Nat.not_lt.2 h)

theorem State.writeReg_of_lt (s : State) {r : Byte} (v : Nat) (h : r.toNat < 8) :
    s.writeReg r v = .ok (s.setReg ⟨r.toNat, h⟩ (u8 v)) := dif_pos h

theorem State.writeReg_of_ge (s : State) {r : Byte} (v : Nat) (h : 8 ≤ r.toNat) :
    s.writeReg r v = .error (.outOfRangeAccess (.register r)) := dif_neg (Nat.not_lt.2 h)

/-- Reading a register pair: both values, or the error of the first index that is out of range. -/
theorem State.readPair_eq (s : State) (a b : Byte) :
    s.readPair a b =
      if ha : a.toNat < 8 then
        if hb : b.toNat < 8 then .ok (s.x[a.toNat]'ha, s.x[b.toNat]'hb)
        else .error (.outOfRangeAccess (.register b))
      else .error (.outOfRangeAccess (.register a)) := by
  unfold State.readPair
  by_cases ha : a.toNat < 8
  · by_cases hb : b.toNat < 8
    · simp [s.readReg_of_lt ha, s.readReg_of_lt hb, ha, hb, bind, Except.bind, pure, Except.pure]
    · simp [s.readReg_of_lt ha, s.readReg_of_ge (Nat.le_of_not_lt hb), ha, hb, bind, Except.bind]
  · simp [s.readReg_of_ge (Nat.le_of_not_lt ha), ha, bind, Except.bind]

/-! ## The stack -/

@[simp] theorem State.sp_setReg (s : State) (i : Fin 8) (v : Byte) :
    (s.setReg i v).sp = if i = 7 then v else s.sp := by
  simp only [State.sp, State.setReg_x]
  by_cases h : i = 7
  · subst h; simp
  · have : (i : Nat) ≠ 7 := fun e => h (Fin.ext e)
    simp [h, this]

@[simp] theorem State.sp_decSp (s : State) : s.decSp.sp = s.sp - 1 := by simp [State.decSp]

@[simp] theorem State.sp_incSp (s : State) : s.incSp.sp = s.sp + 1 := by simp [State.incSp]

@[simp] theorem State.sp_setMem (s : State) (m : Memory) : (s.setMem m).sp = s.sp := rfl

theorem State.pushAddr_eq (s : State) : s.pushAddr = (s.sp - 1).toNat := by simp [State.pushAddr]

theorem State.pushAddr_lt (s : State) : s.pushAddr < 256 := s.decSp.sp.isLt

/-- A stack read never raises (R87). -/
theorem State.loadAtSp_eq (s : State) : s.loadAtSp = .ok (s.mem.read s.sp.toNat) := s.memRead_of_lt s.sp.isLt

/-- A stack write of a value below 256 never raises (R87). -/
theorem State.storeAtSp_of_lt (s : State) {v : Nat} (h : v < 256) :
    s.storeAtSp v = .ok (s.setMem (s.mem.write s.sp.toNat (u8 v))) := s.memWrite_of_lt s.sp.isLt h

/-- A stack write of a byte never raises (R87). -/
theorem State.storeAtSp_byte (s : State) (v : Byte) :
    s.storeAtSp v.toNat = .ok (s.setMem (s.mem.write s.sp.toNat v)) := by
  rw [s.storeAtSp_of_lt v.isLt, u8_toNat]

/-- A stack write of a value that is no byte raises, whatever SP is (R38). -/
theorem State.storeAtSp_value (s : State) {v : Nat} (h : 256 ≤ v) :
    s.storeAtSp v = .error (.outOfRangeAccess (.value v)) := s.memWrite_value s.sp.isLt h

/-! ## Flags and ALU -/

theorem classify_lt {a b : Byte} (h : a.toNat < b.toNat) : classify a b = .lessThan := if_pos h

theorem classify_gt {a b : Byte} (h : b.toNat < a.toNat) : classify a b = .greaterThan := by
  simp [classify, h, Nat.not_lt.2 (Nat.le_of_lt h)]

theorem classify_self (a : Byte) : classify a a = .equal := by simp [classify]

/-- The shape R84, R85 and R86 share, when both operands name registers. -/
theorem aluHandler_of_lt (op : AluOp) (s : State) {a b : Byte} (ha : a.toNat < 8) (hb : b.toNat < 8) :
    aluHandler op a b s =
      (aluApply op (s.x[a.toNat]'ha) (s.x[b.toNat]'hb)).bind fun r => (s.writeAlu a r).bind fun t => .ok (t, .next) := by
  simp [aluHandler, s.readPair_eq, ha, hb, bind, Except.bind, pure, Except.pure]

theorem aluHandler_first (op : AluOp) (s : State) {a : Byte} (b : Byte) (ha : 8 ≤ a.toNat) :
    aluHandler op a b s = .error (.outOfRangeAccess (.register a)) := by
  simp [aluHandler, s.readPair_eq, Nat.not_lt.2 ha, bind, Except.bind]

theorem aluHandler_second (op : AluOp) (s : State) {a b : Byte} (ha : a.toNat < 8) (hb : 8 ≤ b.toNat) :
    aluHandler op a b s = .error (.outOfRangeAccess (.register b)) := by
  simp [aluHandler, s.readPair_eq, ha, Nat.not_lt.2 hb, bind, Except.bind]

/-! ## Transfers -/

theorem jumpTo_of_lt (s : State) {r : Byte} (h : r.toNat < 8) : jumpTo r s = .ok (s, .jump (s.x[r.toNat]'h)) := by
  simp only [jumpTo, s.readReg_of_lt h, bind, Except.bind, pure, Except.pure]

theorem jumpTo_of_ge (s : State) {r : Byte} (h : 8 ≤ r.toNat) :
    jumpTo r s = .error (.outOfRangeAccess (.register r)) := by
  simp only [jumpTo, s.readReg_of_ge h, bind, Except.bind]

/-! ## Ending an instruction -/

@[simp] theorem complete_ok (len : Nat) (s t : State) (q : Sequel) :
    complete len s (.ok (t, q)) = .next (sequence len t q) := rfl

@[simp] theorem complete_error (len : Nat) (s : State) (e : MachineError) :
    complete len s (.error e) = .next (s.raise e) := rfl

/-- Whatever its handler answers, an instruction has a next state. -/
theorem complete_next (len : Nat) (s : State) (h : Handler) : ∃ t, complete len s h = .next t := by
  cases h with
  | ok p => exact ⟨_, rfl⟩
  | error e => exact ⟨_, rfl⟩

/-- Everything the end of an instruction can be: the sequenced effect, or the precise error. -/
theorem complete_cases {len : Nat} {s t : State} {h : Handler} (e : complete len s h = .next t) :
    (∃ u q, h = .ok (u, q) ∧ t = sequence len u q) ∨ (∃ err, h = .error err ∧ t = s.raise err) := by
  cases h with
  | ok p => obtain ⟨u, q⟩ := p; simp at e; exact .inl ⟨u, q, rfl, e.symm⟩
  | error err => simp at e; exact .inr ⟨err, rfl, e.symm⟩

@[simp] theorem sequence_next (len : Nat) (s : State) : sequence len s .next = s.setPc (s.pc + len) := rfl

@[simp] theorem sequence_jump (len : Nat) (s : State) (t : Byte) : sequence len s (.jump t) = s.setPc t.toNat := rfl

@[simp] theorem sequence_halt (len : Nat) (s : State) : sequence len s .halt = s.halt := rfl

/-- A precise error is an observable failure. -/
theorem failsWith_raise (s : State) (e : MachineError) : FailsWith s e (.next (s.raise e)) :=
  ⟨_, rfl, rfl, rfl, rfl⟩

end Sys2Proof.Machine
end

