-- ==== Sys2Proof/Laws/Decode.lean ====
section
/-! SUPPORT. Laws of the decoder and of instruction fetch. -/

namespace Sys2Proof

/-- The decoder on a list that starts with an illegal opcode byte. -/
theorem decode_unknown {b : Byte} (h : decodeOpcode b = none) (rest : List Byte) :
    decode (b :: rest) = .error (.unknownOpcode b) := by simp [decode, h]

/-- The decoder on a list that starts with a legal opcode byte. -/
theorem decode_known {b : Byte} {shape : Shape} (h : decodeOpcode b = some shape) (rest : List Byte) :
    decode (b :: rest) = shape.fill rest := by simp [decode, h]

namespace Machine

/-- Fetch outside memory (R64). -/
theorem State.fetch_outside (s : State) (h : 256 ≤ s.pc) :
    s.fetch = .error (.outOfRangeAccess (.memory s.pc)) := by
  simp [State.fetch, s.memRead_of_ge h, bind, Except.bind]

/-- Fetch inside memory looks the opcode up first (R65). -/
theorem State.fetch_inside (s : State) (h : s.pc < 256) :
    s.fetch = match decodeOpcode (s.mem.read s.pc) with
      | none => .error (.unknownOpcode (s.mem.read s.pc))
      | some shape => s.fetchOperands shape := by
  unfold State.fetch
  rw [s.memRead_of_lt h]
  rfl

/-- A step while running is the fetched instruction, or the precise error of the fetch. -/
theorem step_running (s : State) (h : s.state = .running) :
    step s = match s.fetch with
      | .ok i => exec i s
      | .error e => .next (s.raise e) := if_pos h

/-- Elsewhere there is no step. -/
theorem step_not_running (s : State) (h : s.state ≠ .running) : step s = .fault (.noStep s.state) := if_neg h

end Machine

end Sys2Proof
end

