-- ==== Sys2Proof/Laws/Exec.lean ====
section
/-! SUPPORT. Inversion of instruction fetch and of `exec`: everything a fetch and an instruction can do, said once. A
proof about all instructions takes `exec_cases` apart and never unfolds a meaning. -/

namespace Sys2Proof.Machine

/-- A register operand byte names a register or is out of range. -/
theorem reg_lt_or_ge (r : Byte) : r.toNat < 8 ∨ 8 ≤ r.toNat := Nat.lt_or_ge _ _

/-- The effect of an instruction that completes, over the named updates. -/
def Effect (i : Instr) (s t : State) : Prop :=
  match i with
  | .hlt => t = s.halt
  | .ldi r imm => ∃ h : r.toNat < 8, t = (s.setReg ⟨r.toNat, h⟩ imm).setPc (s.pc + 3)
  | .prn r => ∃ h : r.toNat < 8, t = (s.output (s.x[r.toNat]'h)).setPc (s.pc + 2)
  | .mul a b => ∃ (ha : a.toNat < 8) (hb : b.toNat < 8),
      t = (s.setReg ⟨a.toNat, ha⟩ (u8 ((s.x[a.toNat]'ha).toNat * (s.x[b.toNat]'hb).toNat))).setPc (s.pc + 3)
  | .add a b => ∃ (ha : a.toNat < 8) (hb : b.toNat < 8),
      t = (s.setReg ⟨a.toNat, ha⟩ (u8 ((s.x[a.toNat]'ha).toNat + (s.x[b.toNat]'hb).toNat))).setPc (s.pc + 3)
  | .cmp a b => ∃ (ha : a.toNat < 8) (hb : b.toNat < 8),
      t = (s.setFl (classify (s.x[a.toNat]'ha) (s.x[b.toNat]'hb))).setPc (s.pc + 3)
  | .push r => ∃ h : r.toNat < 8,
      t = (s.decSp.setMem (s.mem.write s.pushAddr (s.decSp.x[r.toNat]'h))).setPc (s.pc + 2)
  | .pop r => ∃ h : r.toNat < 8, t = (s.setReg ⟨r.toNat, h⟩ (s.mem.read s.sp.toNat)).incSp.setPc (s.pc + 2)
  | .call r => s.pc + 2 < 256 ∧ ∃ h : r.toNat < 8,
      t = (s.decSp.setMem (s.mem.write s.pushAddr (u8 (s.pc + 2)))).setPc (s.decSp.x[r.toNat]'h).toNat
  | .ret => t = s.incSp.setPc (s.mem.read s.sp.toNat).toNat
  | .jmp r => ∃ h : r.toNat < 8, t = s.setPc (s.x[r.toNat]'h).toNat
  | .jeq r => (s.fl = .equal ∧ ∃ h : r.toNat < 8, t = s.setPc (s.x[r.toNat]'h).toNat) ∨
      (s.fl ≠ .equal ∧ t = s.setPc (s.pc + 2))
  | .jne r => (s.fl ≠ .equal ∧ ∃ h : r.toNat < 8, t = s.setPc (s.x[r.toNat]'h).toNat) ∨
      (s.fl = .equal ∧ t = s.setPc (s.pc + 2))

/-- Everything an instruction can do: its effect, or the error of an operand that is out of range. -/
theorem exec_cases (i : Instr) (s : State) :
    (∃ t, exec i s = .next t ∧ Effect i s t) ∨ ∃ d, exec i s = .next (s.raise (.outOfRangeAccess d)) := by
  have transfer : ∀ r len, (∃ h : r.toNat < 8, complete len s (jumpTo r s) = .next (s.setPc (s.x[r.toNat]'h).toNat)) ∨
      ∃ d, complete len s (jumpTo r s) = .next (s.raise (.outOfRangeAccess d)) := by
    intro r len
    rcases reg_lt_or_ge r with h | h
    · exact .inl ⟨h, by rw [jumpTo_of_lt s h]; rfl⟩
    · exact .inr ⟨_, by rw [jumpTo_of_ge s h]; rfl⟩
  cases i with
  | hlt => exact .inl ⟨_, rfl, rfl⟩
  | ldi r imm =>
    rcases reg_lt_or_ge r with h | h
    · refine .inl ⟨_, ?_, h, rfl⟩
      simp only [exec, execLdi, s.writeReg_of_lt _ h, bind, Except.bind, pure, Except.pure, complete_ok, u8_toNat]; rfl
    · exact .inr ⟨_, by simp only [exec, execLdi, s.writeReg_of_ge _ h, bind, Except.bind, complete_error]; rfl⟩
  | prn r =>
    rcases reg_lt_or_ge r with h | h
    · refine .inl ⟨_, ?_, h, rfl⟩
      simp only [exec, execPrn, s.readReg_of_lt h, bind, Except.bind, pure, Except.pure, complete_ok]; rfl
    · exact .inr ⟨_, by simp only [exec, execPrn, s.readReg_of_ge h, bind, Except.bind, complete_error]; rfl⟩
  | mul a b =>
    rcases reg_lt_or_ge a with ha | ha
    · rcases reg_lt_or_ge b with hb | hb
      · refine .inl ⟨_, ?_, ha, hb, rfl⟩
        simp only [exec, execMul, aluHandler_of_lt _ s ha hb, aluApply, Except.bind, State.writeAlu,
          s.writeReg_of_lt _ ha, complete_ok, u8_toNat]; rfl
      · exact .inr ⟨_, by simp only [exec, execMul, aluHandler_second _ s ha hb, complete_error]; rfl⟩
    · exact .inr ⟨_, by simp only [exec, execMul, aluHandler_first _ s b ha, complete_error]; rfl⟩
  | add a b =>
    rcases reg_lt_or_ge a with ha | ha
    · rcases reg_lt_or_ge b with hb | hb
      · refine .inl ⟨_, ?_, ha, hb, rfl⟩
        simp only [exec, execAdd, aluHandler_of_lt _ s ha hb, aluApply, Except.bind, State.writeAlu,
          s.writeReg_of_lt _ ha, complete_ok, u8_toNat]; rfl
      · exact .inr ⟨_, by simp only [exec, execAdd, aluHandler_second _ s ha hb, complete_error]; rfl⟩
    · exact .inr ⟨_, by simp only [exec, execAdd, aluHandler_first _ s b ha, complete_error]; rfl⟩
  | cmp a b =>
    rcases reg_lt_or_ge a with ha | ha
    · rcases reg_lt_or_ge b with hb | hb
      · refine .inl ⟨_, ?_, ha, hb, rfl⟩
        simp only [exec, execCmp, aluHandler_of_lt _ s ha hb, aluApply, Except.bind, State.writeAlu, complete_ok]; rfl
      · exact .inr ⟨_, by simp only [exec, execCmp, aluHandler_second _ s ha hb, complete_error]; rfl⟩
    · exact .inr ⟨_, by simp only [exec, execCmp, aluHandler_first _ s b ha, complete_error]; rfl⟩
  | push r =>
    rcases reg_lt_or_ge r with h | h
    · refine .inl ⟨_, ?_, h, rfl⟩
      simp only [exec, execPush, s.decSp.readReg_of_lt h, bind, Except.bind, pure, Except.pure,
        State.storeAtSp_byte, complete_ok]; rfl
    · exact .inr ⟨_, by simp only [exec, execPush, s.decSp.readReg_of_ge h, bind, Except.bind, complete_error]; rfl⟩
  | pop r =>
    rcases reg_lt_or_ge r with h | h
    · refine .inl ⟨_, ?_, h, rfl⟩
      simp only [exec, execPop, s.loadAtSp_eq, s.writeReg_of_lt _ h, bind, Except.bind, pure, Except.pure,
        complete_ok, u8_toNat]; rfl
    · exact .inr ⟨_, by
        simp only [exec, execPop, s.loadAtSp_eq, s.writeReg_of_ge _ h, bind, Except.bind, complete_error]; rfl⟩
  | call r =>
    rcases Nat.lt_or_ge (s.pc + 2) 256 with hp | hp
    · rcases reg_lt_or_ge r with h | h
      · refine .inl ⟨_, ?_, hp, h, rfl⟩
        simp only [exec, execCall, s.decSp.storeAtSp_of_lt hp, State.readReg_of_lt _ h, bind, Except.bind, pure,
          Except.pure, complete_ok]; rfl
      · exact .inr ⟨_, by
          simp only [exec, execCall, s.decSp.storeAtSp_of_lt hp, State.readReg_of_ge _ h, bind, Except.bind,
            complete_error]; rfl⟩
    · exact .inr ⟨_, by simp only [exec, execCall, s.decSp.storeAtSp_value hp, bind, Except.bind, complete_error]; rfl⟩
  | ret =>
    refine .inl ⟨_, ?_, rfl⟩
    simp only [exec, execRet, s.loadAtSp_eq, bind, Except.bind, pure, Except.pure, complete_ok]; rfl
  | jmp r =>
    rcases transfer r (Instr.jmp r).length with ⟨h, e⟩ | ⟨d, e⟩
    · exact .inl ⟨_, e, h, rfl⟩
    · exact .inr ⟨d, e⟩
  | jeq r =>
    by_cases hf : s.fl = .equal
    · rcases transfer r (Instr.jeq r).length with ⟨h, e⟩ | ⟨d, e⟩
      · exact .inl ⟨_, by simp only [exec, execJeq, hf, if_true, e], .inl ⟨hf, h, rfl⟩⟩
      · exact .inr ⟨d, by simp only [exec, execJeq, hf, if_true, e]⟩
    · exact .inl ⟨_, by simp only [exec, execJeq, hf, if_false, complete_ok]; rfl, .inr ⟨hf, rfl⟩⟩
  | jne r =>
    by_cases hf : s.fl = .equal
    · exact .inl ⟨_, by simp only [exec, execJne, hf, ne_eq, not_true, if_false, complete_ok]; rfl, .inr ⟨hf, rfl⟩⟩
    · rcases transfer r (Instr.jne r).length with ⟨h, e⟩ | ⟨d, e⟩
      · exact .inl ⟨_, by simp only [exec, execJne, hf, ne_eq, not_false_eq_true, if_true, e], .inl ⟨hf, h, rfl⟩⟩
      · exact .inr ⟨d, by simp only [exec, execJne, hf, ne_eq, not_false_eq_true, if_true, e]⟩

/-- An instruction that did not fail had its effect. -/
theorem effect_of_next {i : Instr} {s t : State} (h : exec i s = .next t) (hf : t.state ≠ .failed) : Effect i s t := by
  rcases exec_cases i s with ⟨u, hu, he⟩ | ⟨d, hd⟩
  · rw [h] at hu; cases hu; exact he
  · rw [h] at hd; cases hd; exact absurd rfl hf

/-- What a legal opcode byte's shape says of the instruction built from it. -/
theorem decodeOpcode_cases {b : Byte} {shape : Shape} (h : decodeOpcode b = some shape) :
    (∃ i, shape = .done i ∧ i.opcodeByte = b ∧ i.length = 1) ∨
    (∃ build, shape = .one build ∧ ∀ r, (build r).opcodeByte = b ∧ (build r).length = 2) ∨
    (∃ build, shape = .two build ∧ ∀ r c, (build r c).opcodeByte = b ∧ (build r c).length = 3) := by
  unfold decodeOpcode at h
  split at h <;> cases h
  all_goals first
    | exact .inl ⟨_, rfl, rfl, rfl⟩
    | exact .inr (.inl ⟨_, rfl, fun _ => ⟨rfl, rfl⟩⟩)
    | exact .inr (.inr ⟨_, rfl, fun _ _ => ⟨rfl, rfl⟩⟩)

/-- Everything a fetch can do: an address or an opcode out of range, or an instruction that lies in memory whole. -/
theorem fetch_cases (s : State) :
    (∃ a, s.fetch = .error (.outOfRangeAccess (.memory a))) ∨
    (∃ b, s.fetch = .error (.unknownOpcode b)) ∨
    (∃ i, s.fetch = .ok i ∧ s.pc + i.length ≤ 256 ∧ s.mem.read s.pc = i.opcodeByte) := by
  rcases Nat.lt_or_ge s.pc 256 with hp | hp
  · rw [s.fetch_inside hp]
    cases hop : decodeOpcode (s.mem.read s.pc) with
    | none => exact .inr (.inl ⟨_, rfl⟩)
    | some shape =>
      rcases decodeOpcode_cases hop with ⟨i, rfl, h1, h2⟩ | ⟨build, rfl, h⟩ | ⟨build, rfl, h⟩
      · exact .inr (.inr ⟨i, rfl, by omega, h1.symm⟩)
      · rcases Nat.lt_or_ge (s.pc + 1) 256 with h1 | h1
        · refine .inr (.inr ⟨build (s.mem.read (s.pc + 1)), ?_, by rw [(h _).2]; omega, (h _).1.symm⟩)
          simp only [State.fetchOperands, s.memRead_of_lt h1, bind, Except.bind, pure, Except.pure]
        · exact .inl ⟨_, by simp only [State.fetchOperands, s.memRead_of_ge h1, bind, Except.bind]; rfl⟩
      · rcases Nat.lt_or_ge (s.pc + 1) 256 with h1 | h1
        · rcases Nat.lt_or_ge (s.pc + 2) 256 with h2 | h2
          · refine .inr (.inr ⟨build (s.mem.read (s.pc + 1)) (s.mem.read (s.pc + 2)), ?_, by rw [(h _ _).2]; omega,
              (h _ _).1.symm⟩)
            simp only [State.fetchOperands, s.memRead_of_lt h1, s.memRead_of_lt h2, bind, Except.bind, pure, Except.pure]
          · exact .inl ⟨_, by
              simp only [State.fetchOperands, s.memRead_of_lt h1, s.memRead_of_ge h2, bind, Except.bind]; rfl⟩
        · exact .inl ⟨_, by simp only [State.fetchOperands, s.memRead_of_ge h1, bind, Except.bind]; rfl⟩
  · exact .inl ⟨_, s.fetch_outside hp⟩

end Sys2Proof.Machine
end

