-- ==== Sys2Proof/Laws/PerInstr.lean ====
section
/-! SUPPORT. Statements about every instruction as syntax, one lemma per constructor. Layout: format, length and words
agree (R49, R50). Lookup: the opcode map gives the instruction back from its opcode and operand bytes (R53). -/

namespace Sys2Proof.Laws

namespace Layout

/-- Length, words and format of an instruction agree, its register operands are operand bytes, and the operand count
stands in bits 7 and 6 of its opcode byte (R49, R50, R55). -/
def Statement (i : Instr) : Prop :=
  (encode i).length = i.length ∧ i.length = 1 + i.format.operandCount ∧
  i.opcodeByte.toNat / 64 = i.format.operandCount ∧ (∀ r ∈ i.registerOperands, r ∈ i.operands)

theorem hlt : Statement .hlt :=
  ⟨rfl, rfl, by simp [Instr.opcodeByte, Instr.format, Format.operandCount], fun _ h => h⟩
theorem ldi (r imm : Byte) : Statement (.ldi r imm) := 
  ⟨rfl, rfl, by simp [Instr.opcodeByte, Instr.format, Format.operandCount],
    fun _ h => List.mem_cons.2 (.inl (List.mem_singleton.1 h))⟩
theorem prn (r : Byte) : Statement (.prn r) :=
  ⟨rfl, rfl, by simp [Instr.opcodeByte, Instr.format, Format.operandCount], fun _ h => h⟩
theorem mul (a b : Byte) : Statement (.mul a b) :=
  ⟨rfl, rfl, by simp [Instr.opcodeByte, Instr.format, Format.operandCount], fun _ h => h⟩
theorem add (a b : Byte) : Statement (.add a b) :=
  ⟨rfl, rfl, by simp [Instr.opcodeByte, Instr.format, Format.operandCount], fun _ h => h⟩
theorem cmp (a b : Byte) : Statement (.cmp a b) :=
  ⟨rfl, rfl, by simp [Instr.opcodeByte, Instr.format, Format.operandCount], fun _ h => h⟩
theorem push (r : Byte) : Statement (.push r) :=
  ⟨rfl, rfl, by simp [Instr.opcodeByte, Instr.format, Format.operandCount], fun _ h => h⟩
theorem pop (r : Byte) : Statement (.pop r) :=
  ⟨rfl, rfl, by simp [Instr.opcodeByte, Instr.format, Format.operandCount], fun _ h => h⟩
theorem call (r : Byte) : Statement (.call r) :=
  ⟨rfl, rfl, by simp [Instr.opcodeByte, Instr.format, Format.operandCount], fun _ h => h⟩
theorem ret : Statement .ret :=
  ⟨rfl, rfl, by simp [Instr.opcodeByte, Instr.format, Format.operandCount], fun _ h => h⟩
theorem jmp (r : Byte) : Statement (.jmp r) :=
  ⟨rfl, rfl, by simp [Instr.opcodeByte, Instr.format, Format.operandCount], fun _ h => h⟩
theorem jeq (r : Byte) : Statement (.jeq r) :=
  ⟨rfl, rfl, by simp [Instr.opcodeByte, Instr.format, Format.operandCount], fun _ h => h⟩
theorem jne (r : Byte) : Statement (.jne r) :=
  ⟨rfl, rfl, by simp [Instr.opcodeByte, Instr.format, Format.operandCount], fun _ h => h⟩

end Layout

namespace Lookup

/-- The opcode map finds a shape for the instruction's opcode byte, and its operand bytes fill that shape with the
instruction itself and leave the bytes after it alone (R53, R56). -/
def Statement (i : Instr) : Prop :=
  ∃ shape, decodeOpcode i.opcodeByte = some shape ∧ ∀ rest, shape.fill (i.operands ++ rest) = .ok (i, rest)

theorem hlt : Statement .hlt := ⟨_, rfl, fun _ => rfl⟩
theorem ldi (r imm : Byte) : Statement (.ldi r imm) := ⟨_, rfl, fun _ => rfl⟩
theorem prn (r : Byte) : Statement (.prn r) := ⟨_, rfl, fun _ => rfl⟩
theorem mul (a b : Byte) : Statement (.mul a b) := ⟨_, rfl, fun _ => rfl⟩
theorem add (a b : Byte) : Statement (.add a b) := ⟨_, rfl, fun _ => rfl⟩
theorem cmp (a b : Byte) : Statement (.cmp a b) := ⟨_, rfl, fun _ => rfl⟩
theorem push (r : Byte) : Statement (.push r) := ⟨_, rfl, fun _ => rfl⟩
theorem pop (r : Byte) : Statement (.pop r) := ⟨_, rfl, fun _ => rfl⟩
theorem call (r : Byte) : Statement (.call r) := ⟨_, rfl, fun _ => rfl⟩
theorem ret : Statement .ret := ⟨_, rfl, fun _ => rfl⟩
theorem jmp (r : Byte) : Statement (.jmp r) := ⟨_, rfl, fun _ => rfl⟩
theorem jeq (r : Byte) : Statement (.jeq r) := ⟨_, rfl, fun _ => rfl⟩
theorem jne (r : Byte) : Statement (.jne r) := ⟨_, rfl, fun _ => rfl⟩

end Lookup

end Sys2Proof.Laws
end

