-- ==== Sys2Proof/Tests/Slice0.lean ====
section
/-! SUPPORT. Tests of single steps, whose expected results are the vectors of 95_test_vectors.md (their ids stand in the
comments) or the encodings of 30_encoding.md, and a witness for the hypotheses of every statement that has some. -/

namespace Sys2Proof.Tests

open Sys2Proof.Machine

/-- A running engine with bytes at `pc`, and otherwise as right after run entry (70_reset_and_hazards.md R116). -/
def running (pc : Nat) (bytes : List Byte) : State :=
  { State.reset.runEntry with mem := Memory.writeBytes [] pc bytes, pc := pc }

/-- One step, then a look at the next state. -/
def after {α : Type} (s : State) (look : State → α) : Option α := (nextOf (step s)).map look

/-! ## WellFormed: an ill-formed term for each check -/

theorem test_ill_formed_ldi : (Instr.ldi 8 0).wellFormed = false := by decide
theorem test_ill_formed_second_operand : (Instr.add 0 255).wellFormed = false := by decide
theorem test_ill_formed_push : (Instr.push 8).wellFormed = false := by decide
theorem test_immediate_is_no_register : (Instr.ldi 7 255).wellFormed = true := by decide
theorem test_names_no_register : namesRegister 8 = false := by decide
theorem test_does_not_fit : (Instr.ldi 0 0).fitsAt 254 = false ∧ (Instr.ldi 0 0).fitsAt 253 = true := by decide
theorem test_image_too_long (b : Byte) : imageFits (List.replicate 257 b) = false := by
  rw [imageFits, List.length_replicate]; rfl

/-! ## Decoding: each constructor's word, written from the binary opcodes of R53 and the formats of R50 -/

theorem test_decode_hlt : decode [0b00000001] = .ok (.hlt, []) := rfl
theorem test_decode_ldi : decode [0b10000010, 0b00000110, 0b11111111] = .ok (.ldi 6 255, []) := rfl
theorem test_decode_prn : decode [0b01000111, 0b00000011] = .ok (.prn 3, []) := rfl
theorem test_decode_mul : decode [0b10100010, 0b00000000, 0b00000001] = .ok (.mul 0 1, []) := rfl
theorem test_decode_add : decode [0b10100000, 0b00000000, 0b00000001] = .ok (.add 0 1, []) := rfl
theorem test_decode_cmp : decode [0b10100111, 0b00001001, 0b00001010] = .ok (.cmp 9 10, []) := rfl
theorem test_decode_push : decode [0b01000101, 0b00000111] = .ok (.push 7, []) := rfl
theorem test_decode_pop : decode [0b01000110, 0b00000001] = .ok (.pop 1, []) := rfl
theorem test_decode_call : decode [0b01010000, 0b00000001] = .ok (.call 1, []) := rfl
theorem test_decode_ret : decode [0b00010001, 0b01000110] = .ok (.ret, [0b01000110]) := rfl -- VD9
theorem test_decode_jmp : decode [0b01010100, 0b00000010] = .ok (.jmp 2, []) := rfl
theorem test_decode_jeq : decode [0b01010101, 0b00000011] = .ok (.jeq 3, []) := rfl
theorem test_decode_jne : decode [0b01010110, 0b00000011] = .ok (.jne 3, []) := rfl
theorem test_decode_zero : decode [0] = .error (.unknownOpcode 0) := rfl -- R57
theorem test_decode_short : decode [0x82, 0] = .error (.missingOperand 2) := rfl
theorem test_table_word : decodeTableWord 24 0x0800A0 = some (.add 0 8) ∧ decodeTableWord 8 0x47 = some (.prn 0) := by decide
theorem test_first_instruction : after (State.reset.withFetchWord 24 0x2A0182) (fun t => (t.x[1], t.pc)) = some (42, 3) := by
  decide

/-! ## The instructions -/

/-- VH1, VD6. -/
theorem test_hlt : after (running 255 [0x01]) (fun t => (t.state, t.pc)) = some (.halted, 255) := by decide
/-- VL3. -/
theorem test_ldi_sp : after (running 0 [0x82, 7, 0x10]) (fun t => (t.x[7], t.pc)) = some (0x10, 3) := by decide
/-- VL4: the index is not masked to three bits. -/
theorem test_ldi_no_register : after (running 0 [0x82, 8, 1]) (fun t => (t.state, t.err)) =
    some (.failed, some ⟨.outOfRangeAccess (.register 8), 0⟩) := by decide
/-- VN3. -/
theorem test_prn : after (running 0 [0x47, 7]) (fun t => (t.out, t.pc)) = some ([244], 2) := by decide
/-- VM6: 3 × 100. -/
theorem test_mul : after { running 0 [0xA2, 0, 1] with x := #v[3, 100, 0, 0, 0, 0, 0, 0] } (fun t => (t.x[0], t.x[1])) =
    some (44, 100) := by decide
/-- VA1. -/
theorem test_add : after { running 0 [0xA0, 0, 1] with x := #v[250, 10, 0, 0, 0, 0, 0, 0] } (fun t => (t.x[0], t.x[1])) =
    some (4, 10) := by decide
/-- VC4: the comparison is unsigned. -/
theorem test_cmp_unsigned : after { running 0 [0xA7, 0, 1] with x := #v[0, 255, 0, 0, 0, 0, 0, 0] } (fun t => t.fl.bits) =
    some 0b100 := by decide
/-- VE2: op1 is checked first. -/
theorem test_cmp_first_operand : after (running 0 [0xA7, 9, 10]) (fun t => t.err) =
    some (some ⟨.outOfRangeAccess (.register 9), 0⟩) := by decide
/-- VS3: PUSH R7 stores the decremented SP. -/
theorem test_push_sp : after (running 0 [0x45, 7]) (fun t => (t.x[7], t.mem.read 0xF3)) = some (0xF3, 0xF3) := by decide
/-- VS6: SP wraps. -/
theorem test_push_wraps : after { running 0 [0x45, 0] with x := #v[9, 0, 0, 0, 0, 0, 0, 0] }
    (fun t => (t.x[7], t.mem.read 0xFF)) = some (0xFF, 9) := by decide
/-- VS5: POP R7 leaves the popped value plus 1. -/
theorem test_pop_sp : after { running 0 [0x46, 7] with mem := [(0, 0x46), (1, 7), (0xF4, 0x50)] } (fun t => t.x[7]) =
    some 0x51 := by decide
/-- VS8: POP on an empty stack. -/
theorem test_pop_empty : after (running 0 [0x46, 0]) (fun t => (t.x[0], t.x[7], t.state)) = some (0, 0xF5, .running) := by
  decide
/-- VT1. -/
theorem test_call : after { running 0x10 [0x50, 1] with x := #v[0, 0x40, 0, 0, 0, 0, 0, 0xF4] }
    (fun t => (t.x[7], t.mem.read 0xF3, t.pc)) = some (0xF3, 0x12, 0x40) := by decide
/-- VT4: the return address of a CALL at 254 is no byte. -/
theorem test_call_at_254 : after (running 254 [0x50, 1]) (fun t => (t.state, t.err)) =
    some (.failed, some ⟨.outOfRangeAccess (.value 256), 254⟩) := by decide
/-- VT2. -/
theorem test_ret : after { running 0x10 [0x11] with mem := [(0x10, 0x11), (0xF4, 0x12)] } (fun t => (t.pc, t.x[7])) =
    some (0x12, 0xF5) := by decide
/-- VT7. -/
theorem test_jmp : after { running 0 [0x54, 2] with x := #v[0, 0, 0x20, 0, 0, 0, 0, 0] } (fun t => t.pc) = some 0x20 := by
  decide
/-- VT9 and VT10, JEQ. -/
theorem test_jeq : after { running 8 [0x55, 3] with x := #v[0, 0, 0, 0x30, 0, 0, 0, 0] } (fun t => t.pc) = some 0x0A ∧
    after { running 8 [0x55, 3] with x := #v[0, 0, 0, 0x30, 0, 0, 0, 0], fl := .equal } (fun t => t.pc) = some 0x30 := by
  decide
/-- VT13: not taken, the register byte is not looked at. -/
theorem test_jeq_not_taken : after (running 0 [0x55, 9]) (fun t => (t.pc, t.state)) = some (2, .running) := by decide
/-- VT9 and VT10, JNE. -/
theorem test_jne : after { running 8 [0x56, 3] with x := #v[0, 0, 0, 0x30, 0, 0, 0, 0] } (fun t => t.pc) = some 0x30 ∧
    after { running 8 [0x56, 3] with x := #v[0, 0, 0, 0x30, 0, 0, 0, 0], fl := .equal } (fun t => t.pc) = some 0x0A := by
  decide
/-- VT14: taken. -/
theorem test_jne_taken : after (running 0 [0x56, 9]) (fun t => t.err) =
    some (some ⟨.outOfRangeAccess (.register 9), 0⟩) := by decide

/-! ## Fetch, load and run -/

/-- VD4: decode comes before operand fetch. -/
theorem test_unknown_at_255 : after (running 255 [0xFF]) (fun t => t.err) = some (some ⟨.unknownOpcode 0xFF, 255⟩) := by
  decide
/-- VD5. -/
theorem test_operand_past_end : after (running 255 [0x47]) (fun t => (t.err, t.out)) =
    some (some ⟨.outOfRangeAccess (.memory 256), 255⟩, []) := by decide
/-- VD7: LDI at 253 leaves pc = 256, and the next fetch fails. -/
theorem test_run_off_end : after (running 253 [0x82, 1, 0x2A]) (fun t => (t.x[1], t.pc)) = some (42, 256) ∧
    after (running 256 []) (fun t => t.err) = some (some ⟨.outOfRangeAccess (.memory 256), 256⟩) := by decide
/-- VQ2. -/
theorem test_load : (nextOf (hostLoad (.image [0x82, 0, 8]) State.reset)).map (fun t => (t.mem, t.state, t.x[7])) =
    some ([(0, 0x82), (2, 8)], .notStarted, 0) := by decide
/-- VQ3. -/
theorem test_load_too_long : (nextOf (hostLoad (.image (List.replicate 257 1)) State.reset)).map (fun t => (t.mem, t.err)) =
    some ([], some ⟨.loadError .tooLong, 0⟩) := by
  simp only [hostLoad, State.afterLoad, test_image_too_long]; rfl
/-- VQ5: Run in HALTED. -/
theorem test_second_run : nextOf (hostRun (running 0 [1]).halt) = some (running 0 [1]).halt := by decide
/-- VN1, VN2. -/
theorem test_render : renderOutput [0, 255] = "0\n255\n" := by decide
/-- No step before Run (R62). -/
theorem test_no_step_at_reset : step State.reset = .fault (.noStep .notStarted) := rfl

/-! ## Witnesses: concrete states and operands that meet the hypotheses of each statement, clause by clause -/

theorem witness_EncodeUndoesDecode : decode [0xA7, 255, 8, 1] = .ok (.cmp 255 8, [1]) := rfl
theorem witness_MemReadIsBounded : (255 : Nat) < 256 ∧ (256 : Nat) ≤ 256 := by decide
theorem witness_MemWriteIsValidated : (255 < 256 ∧ 255 < 256) ∧ (0 < 256 ∧ 256 ≤ 256) ∧ 256 ≤ 256 := by decide
theorem witness_RegisterIndexIsChecked : (7 : Byte).toNat < 8 ∧ 8 ≤ (8 : Byte).toNat := by decide
theorem witness_CanonicalMemoriesAreEqual : Memory.wf [(0, 1), (255, 2)] = true ∧
    (Memory.write [(0, 1)] 255 2) = [(0, 1), (255, 2)] := by decide
theorem witness_AluRefusesOtherOperations : AluOp.other 0 ≠ .add ∧ AluOp.other 0 ≠ .mul ∧ AluOp.other 0 ≠ .cmp := by decide

/-- The hypotheses of `PastTheEndFails op n` are met at address 255, and at 254 when there are two operand bytes. -/
theorem witness_PastTheEndFails : ∀ op ∈ ([0x82, 0x47, 0xA2, 0xA0, 0xA7, 0x45, 0x46, 0x50, 0x54, 0x55, 0x56] : List Byte),
    ((running 255 [op]).state = .running ∧ (running 255 [op]).pc < 256 ∧
      (running 255 [op]).mem.read (running 255 [op]).pc = op ∧ (running 255 [op]).pc + 1 = 256) ∧
    ((running 254 [op]).state = .running ∧ (running 254 [op]).pc < 256 ∧
      (running 254 [op]).mem.read (running 254 [op]).pc = op ∧ (running 254 [op]).pc + 2 = 256) := by decide

theorem witness_HltHalts : (running 255 [1]).state = .running ∧ (running 255 [1]).pc < 256 ∧
    (running 255 [1]).mem.read (running 255 [1]).pc = 0x01 := by decide
/-- Operand bytes at the boundary, for LDI, PRN, PUSH, POP and JMP. -/
theorem witness_one_register : (7 : Byte).toNat < 8 ∧ 8 ≤ (8 : Byte).toNat ∧ 8 ≤ (255 : Byte).toNat := by decide
/-- The same for MUL, ADD and CMP: both name registers, the first does not, only the second does not. -/
theorem witness_two_registers : ((0 : Byte).toNat < 8 ∧ (7 : Byte).toNat < 8) ∧ 8 ≤ (8 : Byte).toNat ∧
    ((7 : Byte).toNat < 8 ∧ 8 ≤ (8 : Byte).toNat) := by decide
/-- CMP's three cases: SP = 0xF4 against R0 = 0, both ways, and R0 against itself. -/
theorem witness_CmpClassifiesUnsigned : (running 0 []).x[0].toNat < (running 0 []).x[7].toNat ∧
    (running 0 []).x[7].toNat > (running 0 []).x[0].toNat ∧ (running 0 []).x[0].toNat = (running 0 []).x[0].toNat := by
  decide
/-- CALL's clauses meet at pc = 253 and 254. -/
theorem witness_CallPushesReturnAddress : ((7 : Byte).toNat < 8 ∧ (running 253 []).pc + 2 < 256) ∧
    256 ≤ (running 254 []).pc + 2 ∧ ((running 253 []).pc + 2 < 256 ∧ 8 ≤ (8 : Byte).toNat) := by decide
theorem witness_RetPopsTarget : (running 255 [0x11]).state = .running ∧ (running 255 [0x11]).pc < 256 ∧
    (running 255 [0x11]).mem.read (running 255 [0x11]).pc = 0x11 := by decide
/-- JEQ's and JNE's clauses: FL EQUAL with a register and without, FL not EQUAL with a register and without. -/
theorem witness_branches : (((running 0 []).setFl .equal).fl = .equal ∧ (7 : Byte).toNat < 8 ∧ 8 ≤ (8 : Byte).toNat) ∧
    ((running 0 []).fl ≠ .equal ∧ (7 : Byte).toNat < 8 ∧ 8 ≤ (8 : Byte).toNat) := by decide
theorem witness_PushThenPopCopies : (7 : Byte).toNat < 8 ∧ (6 : Byte).toNat < 8 ∧ (6 : Byte).toNat ≠ 7 := by decide
theorem witness_SpAfterPushes : ∀ r ∈ ([0, 7, 3] : List Byte), r.toNat < 8 := by decide
theorem witness_RetResumesAfterCall : ∃ t, (1 : Byte).toNat < 8 ∧ (running 253 [0x50, 1]).pc ≤ 253 ∧
    exec (.call 1) (running 253 [0x50, 1]) = .next t ∧ t.x[7] = t.x[7] ∧
    t.mem.read t.x[7].toNat = t.mem.read t.x[7].toNat :=
  ⟨_, by decide, by decide, rfl, rfl, rfl⟩
theorem witness_PushedByteIsExecuted : (running 253 []).state = .running ∧ (7 : Byte).toNat < 8 ∧
    (running 253 []).pc + 2 < 256 := by decide
/-- Each clause of `StepRuns`, as `PushedByteIsExecuted` reaches it: HLT pushed, an illegal byte, LDI at address 255. -/
theorem witness_StepRuns : decode (0x01 :: (running 0 []).bytesFrom 244 2) = .ok (.hlt, [0, 0]) ∧
    decode (0xF3 :: (running 0 []).bytesFrom 244 2) = .error (.unknownOpcode 0xF3) ∧
    decode (0x82 :: (running 0 []).bytesFrom 256 2) = .error (.missingOperand 1) := ⟨rfl, rfl, rfl⟩
/-- The transfers of `SequencerWritesPc` complete, branches taken and not taken. -/
theorem witness_SequencerWritesPc : ∀ p ∈ [(Instr.call 7, Flags.none), (.ret, .none), (.jmp 7, .none), (.jeq 7, .equal),
    (.jeq 8, .none), (.jne 7, .none), (.jne 8, .equal)],
    (nextOf (exec p.1 ((running 0 []).setFl p.2))).any (fun t => decide (t.state ≠ .failed)) = true := by decide

/-- A completing instruction from a running state, for the frame, flag and sequencer statements. -/
theorem witness_completes : ∃ t, exec (.push 7) (running 0 [0x45, 7]) = .next t ∧ t.state ≠ .failed :=
  ⟨_, rfl, by decide⟩
/-- A failing one, which `OnlyBranchesReadFlags` and `UnnamedRegistersDoNotMatter` cover too. -/
theorem witness_fails : ∃ t, exec (.push 8) (running 0 [0x45, 8]) = .next t ∧ t.state = .failed := ⟨_, rfl, rfl⟩
/-- A CMP that completes, for the clause of `OnlyBranchesReadFlags` on the FL it writes. -/
theorem witness_OnlyBranchesReadFlags : ∃ t, exec (.cmp 0 7) (running 0 []) = .next t ∧ t.state ≠ .failed :=
  ⟨_, rfl, by decide⟩
theorem witness_UnnamedRegistersDoNotMatter : (6 : Fin 8) ≠ 7 ∧
    (∀ r ∈ (Instr.add 0 7).registerOperands, r.toNat ≠ (6 : Fin 8).val) ∧
    ∃ t, exec (.add 0 7) (running 0 []) = .next t ∧ t.state ≠ .failed := ⟨by decide, by decide, _, rfl, by decide⟩
theorem witness_WellFormedInstructionsComplete : (Instr.call 7).wellFormed = true ∧
    (∀ r, Instr.call 7 = .call r → (running 253 []).pc + 2 < 256) ∧ (running 253 []).state = .running :=
  ⟨by decide, fun _ _ => by decide, rfl⟩
theorem witness_StepRunsDecodedInstruction : (running 254 [0x45, 7]).state = .running ∧
    decode ((running 254 [0x45, 7]).bytesFrom (running 254 [0x45, 7]).pc 3) = .ok (.push 7, []) := ⟨rfl, rfl⟩
theorem witness_StepRunsEncodedInstruction : (running 253 [0xA0, 0, 1]).state = .running ∧
    (running 253 [0xA0, 0, 1]).pc + (Instr.add 0 1).length ≤ 256 ∧
    ∀ (k : Nat) (h : k < (encode (.add 0 1)).length), (running 253 [0xA0, 0, 1]).mem.read
      ((running 253 [0xA0, 0, 1]).pc + k) = (encode (.add 0 1))[k] := by decide
theorem witness_FetchOutsideMemoryFails : (running 256 []).state = .running ∧ 256 ≤ (running 256 []).pc := by decide
theorem witness_UnknownOpcodeFails : (running 255 [0xFF]).state = .running ∧ (running 255 [0xFF]).pc < 256 ∧
    (running 255 [0xFF]).mem.read (running 255 [0xFF]).pc ∉
      ([0x01, 0x82, 0x47, 0xA2, 0xA0, 0xA7, 0x45, 0x46, 0x50, 0x11, 0x54, 0x55, 0x56] : List Byte) := by decide
theorem witness_OperandFetchPastMemoryFails : (running 254 [0x82]).state = .running ∧ (running 254 [0x82]).pc < 256 ∧
    (running 254 [0x82]).mem.read (running 254 [0x82]).pc = (Instr.ldi 0 0).opcodeByte ∧
    256 < (running 254 [0x82]).pc + (Instr.ldi 0 0).length := by decide
/-- For `ErrorsArePrecise`, `StepsRaiseTwoKinds` and `OutputOnlyGrows`. -/
theorem witness_failing_step : ∃ t, (running 0 [0x45, 8]).state = .running ∧ step (running 0 [0x45, 8]) = .next t ∧
    t.state = .failed := ⟨_, rfl, rfl, rfl⟩
theorem witness_ErrorCodesAreNumbered : State.reset.err = none ∧
    (State.loadFailed .tooLong).err = some ⟨.loadError .tooLong, 0⟩ := ⟨rfl, rfl⟩
theorem witness_LoadWritesImage : State.reset.state ≠ .running ∧ (List.replicate 256 (0 : Byte)).length ≤ 256 ∧
    256 < (List.replicate 257 (0 : Byte)).length := 
  ⟨by decide, by rw [List.length_replicate], by rw [List.length_replicate]; decide⟩
theorem witness_RunEntrySetsSp : State.reset.state = .notStarted := rfl
theorem witness_HostHasNoMoveWhileRunning : (running 0 []).state = .running := rfl
theorem witness_EndedRunsAreTerminal : Ended (running 0 []).halt ∧ Ended (State.loadFailed .malformed) ∧
    ∃ t, act (.load .malformed) (running 0 []).halt = .next t ∧ t ≠ (running 0 []).halt :=
  ⟨.inl rfl, .inr rfl, _, rfl, by decide⟩
theorem witness_RunStateTransitions : ∃ t u v, act (.load (.image [1])) State.reset = .next t ∧ act .run t = .next u ∧
    act .step u = .next v := ⟨_, _, _, rfl, rfl, rfl⟩
/-- For `StepKeepsInv`, `HostActionsKeepInv` and `ReachableStatesAreSound`: a running state that construction, a Load and
Run lead to, which meets the invariant and steps. -/
theorem witness_invariant : Inv (State.loaded [1]).runEntry ∧ Reachable (State.loaded [1]).runEntry ∧
    (State.loaded [1]).runEntry.state = .running ∧ ∃ t, step (State.loaded [1]).runEntry = .next t :=
  ⟨⟨by decide, fun _ => by decide, by decide, fun h => (by cases h), fun h => (by cases h)⟩,
    .event .run (.event (.load (.image [1])) .construction rfl) rfl, rfl, _, rfl⟩
theorem witness_host_run : ∃ t, Inv State.reset ∧ hostRun State.reset = .next t :=
  ⟨_, ⟨rfl, fun _ => by decide, by decide, fun _ => ⟨rfl, rfl, rfl, rfl⟩, fun h => by cases h⟩, rfl⟩

end Sys2Proof.Tests
end

/-! SUPPORT. The proofs about the register file and the flags register (10_state.md, sections 1 and 3). -/

namespace Sys2Proof.Machine

/-! ## Register access (R18) -/

/-- Settles O7, from the two laws of each access: an index below 8, and one of 8 or more. -/
theorem registerIndexIsChecked : Obligations.RegisterIndexIsChecked := by
  intro s i v
  constructor
  · intro h
    exact ⟨s.readReg_of_lt h, s.writeReg_of_lt v h⟩
  · intro h
    exact ⟨s.readReg_of_ge h, s.writeReg_of_ge v h⟩

/-! ## Operations and the flags register

A read is blind to FL, and a write of anything else commutes with `State.setFl`. The handlers inherit both. -/

@[simp] theorem State.readReg_setFl (s : State) (f : Flags) (r : Byte) : (s.setFl f).readReg r = s.readReg r := rfl

@[simp] theorem State.readPair_setFl (s : State) (f : Flags) (a b : Byte) :
    (s.setFl f).readPair a b = s.readPair a b := rfl

@[simp] theorem State.loadAtSp_setFl (s : State) (f : Flags) : (s.setFl f).loadAtSp = s.loadAtSp := rfl

@[simp] theorem State.decSp_setFl (s : State) (f : Flags) : (s.setFl f).decSp = s.decSp.setFl f := rfl

@[simp] theorem State.incSp_setFl (s : State) (f : Flags) : (s.setFl f).incSp = s.incSp.setFl f := rfl

@[simp] theorem State.output_setFl (s : State) (f : Flags) (v : Byte) :
    (s.setFl f).output v = (s.output v).setFl f := rfl

@[simp] theorem State.writeReg_setFl (s : State) (f : Flags) (r : Byte) (v : Nat) :
    (s.setFl f).writeReg r v = (·.setFl f) <$> s.writeReg r v := by
  rcases reg_lt_or_ge r with h | h
  · simp only [State.writeReg_of_lt _ v h]; rfl
  · simp only [State.writeReg_of_ge _ v h]; rfl

@[simp] theorem State.storeAtSp_setFl (s : State) (f : Flags) (v : Nat) :
    (s.setFl f).storeAtSp v = (·.setFl f) <$> s.storeAtSp v := by
  rcases Nat.lt_or_ge v 256 with h | h
  · simp only [State.storeAtSp_of_lt _ h]; rfl
  · simp only [State.storeAtSp_value _ h]; rfl

/-- A handler's result with another value in FL. -/
def withFl (f : Flags) (p : State × Sequel) : State × Sequel := (p.1.setFl f, p.2)

@[simp] theorem withFl_mk (f : Flags) (s : State) (q : Sequel) : withFl f (s, q) = (s.setFl f, q) := rfl

/-- An ALU operation that answers a byte, as ADD and MUL do, carries FL through (R80). -/
theorem aluHandler_setFl {op : AluOp} (hop : ∀ va vb, ∃ v, aluApply op va vb = pure (.value v)) (a b : Byte)
    (s : State) (f : Flags) : aluHandler op a b (s.setFl f) = withFl f <$> aluHandler op a b s := by
  simp only [aluHandler, State.readPair_setFl, map_bind]
  congr 1
  funext ⟨va, vb⟩
  obtain ⟨v, hv⟩ := hop va vb
  simp [hv, State.writeAlu]

/-- CMP overwrites whatever FL held (R86). -/
theorem aluHandler_cmp_setFl (a b : Byte) (s : State) (f : Flags) :
    aluHandler .cmp a b (s.setFl f) = aluHandler .cmp a b s := rfl

@[simp] theorem jumpTo_setFl (r : Byte) (s : State) (f : Flags) :
    jumpTo r (s.setFl f) = withFl f <$> jumpTo r s := by
  simp [jumpTo]

/-- An instruction whose handler commutes with a change of FL does so itself, error or not. -/
theorem complete_setFl {len : Nat} {s t : State} {h : Handler} (f : Flags) (e : complete len s h = .next t) :
    complete len (s.setFl f) (withFl f <$> h) = .next (t.setFl f) := by
  rcases complete_cases e with ⟨u, q, rfl, rfl⟩ | ⟨err, rfl, rfl⟩
  · cases q <;> rfl
  · rfl

/-! ## Instructions and the flags register (R25) -/

/-- An instruction other than CMP, JEQ and JNE carries any value of FL through, whether it completes or fails. -/
theorem exec_setFl {i : Instr} {s t : State} (hcmp : ∀ a b, i ≠ .cmp a b) (hbr : ∀ r, i ≠ .jeq r ∧ i ≠ .jne r)
    (h : exec i s = .next t) (f : Flags) : exec i (s.setFl f) = .next (t.setFl f) := by
  cases i with
  | hlt => exact complete_setFl (s := s) (h := .ok (s, .halt)) f h
  | ldi r imm => simpa [exec, execLdi] using complete_setFl f h
  | prn r => simpa [exec, execPrn] using complete_setFl f h
  | mul a b =>
    simpa [exec, execMul, aluHandler_setFl (op := .mul) fun _ _ => ⟨_, rfl⟩] using complete_setFl f h
  | add a b =>
    simpa [exec, execAdd, aluHandler_setFl (op := .add) fun _ _ => ⟨_, rfl⟩] using complete_setFl f h
  | cmp a b => exact absurd rfl (hcmp a b)
  | push r => simpa [exec, execPush] using complete_setFl f h
  | pop r => simpa [exec, execPop] using complete_setFl f h
  | call r => simpa [exec, execCall] using complete_setFl f h
  | ret => simpa [exec, execRet] using complete_setFl f h
  | jmp r => simpa [exec, execJmp] using complete_setFl f h
  | jeq r => exact absurd rfl (hbr r).1
  | jne r => exact absurd rfl (hbr r).2

/-- A CMP that completes gives the same state whatever FL held; one that fails carries FL through. -/
theorem exec_cmp_setFl {a b : Byte} {s t : State} (h : exec (.cmp a b) s = .next t) (f : Flags) :
    exec (.cmp a b) (s.setFl f) = .next t ∨
    (t.state = .failed ∧ exec (.cmp a b) (s.setFl f) = .next (t.setFl f)) := by
  simp only [exec, execCmp, aluHandler_cmp_setFl] at h ⊢
  rcases complete_cases h with ⟨u, q, hu, rfl⟩ | ⟨e, he, rfl⟩
  · exact .inl (by simp [hu])
  · exact .inr ⟨rfl, by rw [he]; rfl⟩

/-- CMP alone writes FL: no other effect names it. -/
theorem Effect.fl_eq {i : Instr} {s t : State} (hcmp : ∀ a b, i ≠ .cmp a b) (h : Effect i s t) : t.fl = s.fl := by
  cases i with
  | hlt | ret => subst h; rfl
  | ldi | prn | push | pop | jmp => obtain ⟨_, rfl⟩ := h; rfl
  | mul | add => obtain ⟨_, _, rfl⟩ := h; rfl
  | cmp a b => exact absurd rfl (hcmp a b)
  | call => obtain ⟨_, _, rfl⟩ := h; rfl
  | jeq | jne => obtain ⟨_, _, rfl⟩ | ⟨_, rfl⟩ := h <;> rfl

/-- Settles O32: a change of FL commutes with every instruction but CMP, which overwrites it, and the two branches. -/
theorem onlyBranchesReadFlags : Obligations.OnlyBranchesReadFlags := by
  intro i s t h
  refine ⟨fun hcmp hn => (effect_of_next h hn).fl_eq hcmp, fun hbr f => ?_⟩
  by_cases hcmp : ∃ a b, i = .cmp a b
  · obtain ⟨a, b, rfl⟩ := hcmp
    rcases exec_cmp_setFl h f with hu | ⟨hfail, hu⟩
    · exact ⟨t, hu, rfl, rfl, rfl, fun _ => ⟨rfl, rfl, rfl, fun _ => rfl⟩⟩
    · exact ⟨t.setFl f, hu, rfl, rfl, rfl, fun hn => absurd hfail hn⟩
  · have hu := exec_setFl (fun a b e => hcmp ⟨a, b, e⟩) hbr h f
    exact ⟨t.setFl f, hu, rfl, rfl, rfl, fun _ => ⟨rfl, rfl, rfl, fun hc => absurd hc hcmp⟩⟩

end Sys2Proof.Machine

/-! ## Memory (20_memory.md) -/

namespace Sys2Proof.Machine

/-- Settles O5, one law of `memRead` for each side of the bound 256 (20_memory.md R37). -/
theorem memReadIsBounded : Obligations.MemReadIsBounded :=
  fun s _ => ⟨s.memRead_of_lt, s.memRead_of_ge⟩

end Sys2Proof.Machine

/-! ## The opcode map (30_encoding.md R53, R57) -/

namespace Sys2Proof

/-- The 13 opcode bytes of R53, in the order of the table. -/
def opcodeBytes : List Byte :=
  [0x01, 0x82, 0x47, 0xA2, 0xA0, 0xA7, 0x45, 0x46, 0x50, 0x11, 0x54, 0x55, 0x56]

/-- A byte selects no instruction exactly when it is none of the 13 (R54, R57). -/
theorem decodeOpcode_eq_none_iff (b : Byte) : decodeOpcode b = none ↔ b ∉ opcodeBytes := by
  unfold decodeOpcode
  split
  case h_14 => simp_all [opcodeBytes]
  all_goals simp [opcodeBytes]

/-- The numbers of the 13 opcode bytes. -/
def opcodeNats : Finset Nat := (opcodeBytes.map BitVec.toNat).toFinset

/-- A number below 256 is an opcode's number exactly when its byte is one of the 13. -/
theorem mem_opcodeNats_iff {n : Nat} (h : n < 256) : n ∈ opcodeNats ↔ BitVec.ofNat 8 n ∈ opcodeBytes := by
  rw [opcodeNats, List.mem_toFinset, List.mem_map]
  constructor
  · rintro ⟨b, hb, rfl⟩
    simpa using hb
  · intro hn
    exact ⟨_, hn, by rw [BitVec.toNat_ofNat]; exact Nat.mod_eq_of_lt h⟩

/-- The 256 bytes without the 13 opcodes are 243 (R57). -/
theorem length_filter_decodeOpcode_isNone :
    ((List.range 256).filter fun n => (decodeOpcode (BitVec.ofNat 8 n)).isNone).length = 243 := by
  have isNone_iff : ∀ n ∈ List.range 256, (decodeOpcode (BitVec.ofNat 8 n)).isNone = decide (n ∉ opcodeNats) := by
    intro n hn
    rw [Bool.eq_iff_iff, Option.isNone_iff_eq_none, decide_eq_true_iff, decodeOpcode_eq_none_iff,
      mem_opcodeNats_iff (List.mem_range.1 hn)]
  calc
    _ = ((List.range 256).filter (· ∉ opcodeNats)).length := by rw [List.filter_congr isNone_iff]
    _ = (Finset.range 256 \ opcodeNats).card := by rw [Finset.sdiff_eq_filter]; rfl
    _ = (Finset.range 256).card - opcodeNats.card := Finset.card_sdiff_of_subset (by decide)
    _ = 256 - 13 := by rw [Finset.card_range]; rfl

end Sys2Proof

namespace Sys2Proof.Machine

/-- A fetch of an illegal opcode byte reports it, whatever stands after it (R65). -/
theorem State.fetch_unknown (s : State) (hpc : s.pc < 256) (hop : decodeOpcode (s.mem.read s.pc) = none) :
    s.fetch = .error (.unknownOpcode (s.mem.read s.pc)) := by
  rw [s.fetch_inside hpc, hop]

/-- A step whose fetch raises is the observable failure of that error (R99, R102). -/
theorem step_failsWith_of_fetch {s : State} {e : MachineError} (hrun : s.state = .running) (h : s.fetch = .error e) :
    FailsWith s e (step s) := by
  rw [step_running s hrun, h]
  exact failsWith_raise s e

/-- Settles O40: a byte outside the opcode map ends the fetch, which fails the step; the map leaves 243 bytes out. -/
theorem unknownOpcodeFails : Obligations.UnknownOpcodeFails := by
  refine ⟨fun s hrun hpc hop => ?_, length_filter_decodeOpcode_isNone, rfl⟩
  exact step_failsWith_of_fetch hrun (s.fetch_unknown hpc ((decodeOpcode_eq_none_iff _).2 hop))

end Sys2Proof.Machine

/-! ## The execution cycle (40_execution_cycle.md) -/

namespace Sys2Proof.Machine

/-- An instruction always has a next state: its errors are next states too (R63, R102). -/
theorem exec_next (i : Instr) (s : State) : ∃ t, exec i s = .next t := by
  rcases exec_cases i s with ⟨t, ht, _⟩ | ⟨_, ht⟩
  · exact ⟨t, ht⟩
  · exact ⟨_, ht⟩

/-- While RUNNING the machine never stops: the fetch gives an instruction or an error, and each has a next state. -/
theorem step_next_of_running {s : State} (hrun : s.state = .running) : ∃ t, step s = .next t := by
  rw [step_running s hrun]
  cases s.fetch with
  | ok i => exact exec_next i s
  | error e => exact ⟨s.raise e, rfl⟩

/-- A step is taken only while RUNNING (R62). -/
theorem running_of_step_next {s t : State} (h : step s = .next t) : s.state = .running := by
  by_contra hrun
  rw [step_not_running s hrun] at h
  cases h

/-- Settles O38, one direction each from `running_of_step_next` and `step_next_of_running`. -/
theorem stepsExactlyWhileRunning : Obligations.StepsExactlyWhileRunning :=
  fun _ => ⟨fun ⟨_, h⟩ => running_of_step_next h, step_next_of_running⟩

/-- Settles O39: the opcode fetch raises with the address `pc`, which fails the step. -/
theorem fetchOutsideMemoryFails : Obligations.FetchOutsideMemoryFails :=
  fun s hrun hpc => step_failsWith_of_fetch hrun (s.fetch_outside hpc)

end Sys2Proof.Machine

/-! ## One operand byte past address 255 (40_execution_cycle.md R66) -/

namespace Sys2Proof.Machine

/-- At address 255 a legal opcode of format R has no operand byte: the fetch raises at address 256. -/
theorem State.fetch_one_outside (s : State) {build : Byte → Instr} (hpc : s.pc + 1 = 256)
    (hop : decodeOpcode (s.mem.read s.pc) = some (.one build)) :
    s.fetch = .error (.outOfRangeAccess (.memory (s.pc + 1))) := by
  have hoperand : s.memRead (s.pc + 1) = .error (.outOfRangeAccess (.memory (s.pc + 1))) := s.memRead_of_ge hpc.ge
  rw [s.fetch_inside (by omega), hop]
  simp only [State.fetchOperands, hoperand, bind, Except.bind]

/-- Every opcode of format R fails past the end: its one operand byte is the one that is missing. -/
theorem pastTheEndFails_one {op : Byte} {build : Byte → Instr} (hop : decodeOpcode op = some (.one build)) :
    PastTheEndFails op 1 := by
  intro s k hrun _ hread hk1 hk hend
  obtain rfl : k = 1 := Nat.le_antisymm hk hk1
  exact step_failsWith_of_fetch hrun (s.fetch_one_outside hend (hread ▸ hop))

end Sys2Proof.Machine

/-! ## System and data instructions (41_system_data.md) -/

namespace Sys2Proof.Machine

/-- PRN of a register emits its byte and moves on by the instruction's two bytes (R78). -/
theorem exec_prn_of_lt (s : State) {r : Byte} (h : r.toNat < 8) :
    exec (.prn r) s = .next ((s.output (s.x[r.toNat]'h)).setPc (s.pc + 2)) := by
  simp only [exec, execPrn, s.readReg_of_lt h, bind, Except.bind, pure, Except.pure, complete_ok]
  rfl

/-- PRN of an operand byte that names no register is the precise error of that byte (R18, R78). -/
theorem exec_prn_of_ge (s : State) {r : Byte} (h : 8 ≤ r.toNat) :
    exec (.prn r) s = .next (s.raise (.outOfRangeAccess (.register r))) := by
  simp only [exec, execPrn, s.readReg_of_ge h, bind, Except.bind, complete_error]

/-- Settles O14, from PRN's two laws of `exec`, and at address 255 from the law of all one-operand opcodes. -/
theorem prnEmitsRegister : Obligations.PrnEmitsRegister := by
  refine ⟨fun _ => rfl, fun s _ h => exec_prn_of_lt s h, fun s r h => ?_, pastTheEndFails_one rfl⟩
  rw [exec_prn_of_ge s h]
  exact failsWith_raise s _

end Sys2Proof.Machine

/-! ## Control transfer (44_control.md) -/

namespace Sys2Proof.Machine

/-- JMP goes to the address its register holds, whatever `pc` was (R94). -/
theorem exec_jmp_of_lt (s : State) {r : Byte} (h : r.toNat < 8) :
    exec (.jmp r) s = .next (s.setPc (s.x[r.toNat]'h).toNat) := by
  simp only [exec, execJmp, jumpTo_of_lt s h, complete_ok]
  rfl

/-- JMP through an operand byte that names no register is the precise error of that byte (R18, R94). -/
theorem exec_jmp_of_ge (s : State) {r : Byte} (h : 8 ≤ r.toNat) :
    exec (.jmp r) s = .next (s.raise (.outOfRangeAccess (.register r))) := by
  simp only [exec, execJmp, jumpTo_of_ge s h, complete_error]

/-- Settles O22, from JMP's two laws of `exec`, and at address 255 from the law of all one-operand opcodes. -/
theorem jmpGoesToRegister : Obligations.JmpGoesToRegister := by
  refine ⟨fun _ => rfl, fun s _ h => exec_jmp_of_lt s h, fun s r h => ?_, pastTheEndFails_one rfl⟩
  rw [exec_jmp_of_ge s h]
  exact failsWith_raise s _

end Sys2Proof.Machine

/-! ## Construction, load and run entry (70_reset_and_hazards.md) -/

namespace Sys2Proof.Machine

/-- `Run` in NOT_STARTED is run entry, not a refusal and not the no-effect of an ended run (R114, R115). -/
theorem hostRun_of_notStarted {s : State} (h : s.state = .notStarted) : hostRun s = .next s.runEntry := by
  simp only [hostRun, h]

/-- Settles O48: `Run` is run entry here, and run entry is by definition the update of SP and `state` alone. -/
theorem runEntrySetsSp : Obligations.RunEntrySetsSp := by
  intro s h
  calc hostRun s = .next s.runEntry := hostRun_of_notStarted h
    _ = .next { s with x := s.x.set 7 0xF4, state := .running } := rfl

end Sys2Proof.Machine

/-! ## Decode and encode agree (30_encoding.md) -/

namespace Sys2Proof

/-- The opcode map selects the instruction's own shape, collected over the 13 rows of R53. -/
theorem Instr.lookup (i : Instr) : Laws.Lookup.Statement i := by
  cases i with
  | hlt => exact Laws.Lookup.hlt
  | ldi r imm => exact Laws.Lookup.ldi r imm
  | prn r => exact Laws.Lookup.prn r
  | mul a b => exact Laws.Lookup.mul a b
  | add a b => exact Laws.Lookup.add a b
  | cmp a b => exact Laws.Lookup.cmp a b
  | push r => exact Laws.Lookup.push r
  | pop r => exact Laws.Lookup.pop r
  | call r => exact Laws.Lookup.call r
  | ret => exact Laws.Lookup.ret
  | jmp r => exact Laws.Lookup.jmp r
  | jeq r => exact Laws.Lookup.jeq r
  | jne r => exact Laws.Lookup.jne r

/-- Length, words, format and opcode bits agree, collected over the 13 rows of R53. -/
theorem Instr.layout (i : Instr) : Laws.Layout.Statement i := by
  cases i with
  | hlt => exact Laws.Layout.hlt
  | ldi r imm => exact Laws.Layout.ldi r imm
  | prn r => exact Laws.Layout.prn r
  | mul a b => exact Laws.Layout.mul a b
  | add a b => exact Laws.Layout.add a b
  | cmp a b => exact Laws.Layout.cmp a b
  | push r => exact Laws.Layout.push r
  | pop r => exact Laws.Layout.pop r
  | call r => exact Laws.Layout.call r
  | ret => exact Laws.Layout.ret
  | jmp r => exact Laws.Layout.jmp r
  | jeq r => exact Laws.Layout.jeq r
  | jne r => exact Laws.Layout.jne r

/-- Decoding what was encoded gives the instruction back and leaves the bytes after it alone. -/
theorem decode_encode (i : Instr) (rest : List Byte) : decode (encode i ++ rest) = .ok (i, rest) := by
  obtain ⟨shape, hshape, hfill⟩ := i.lookup
  calc decode (encode i ++ rest) = shape.fill (i.operands ++ rest) := decode_known hshape _
    _ = .ok (i, rest) := hfill rest

/-- Settles O2: the opcode map finds the instruction's shape, and its operand bytes fill it. -/
theorem decodeUndoesEncode : Obligations.DecodeUndoesEncode := decode_encode

/-- Whatever operand bytes fill the shape, the instruction is encoded by the opcode byte `b` and those bytes. -/
def Shape.EncodesFrom (b : Byte) : Shape → Prop
  | .done i => encode i = [b]
  | .one mk => ∀ r, encode (mk r) = [b, r]
  | .two mk => ∀ r c, encode (mk r c) = [b, r, c]

/-- The decoder's binary column of the opcode map agrees with the encoder's hexadecimal column (R53). -/
theorem decodeOpcode_encodesFrom {b : Byte} {shape : Shape} (h : decodeOpcode b = some shape) :
    shape.EncodesFrom b := by
  unfold decodeOpcode at h
  split at h <;> cases h
  all_goals
    simp only [Shape.EncodesFrom]
    intros
    rfl

/-- Filling a shape either takes the operand bytes from the front of the list, or misses one. -/
theorem Shape.fill_cases {b : Byte} {shape : Shape} (h : shape.EncodesFrom b) (bytes : List Byte) :
    (∃ i rest, shape.fill bytes = .ok (i, rest) ∧ encode i ++ rest = b :: bytes) ∨
    (∃ k, shape.fill bytes = .error (.missingOperand k)) := by
  match shape, bytes with
  | .done i, rest => exact .inl ⟨i, rest, rfl, by rw [show encode i = [b] from h]; rfl⟩
  | .one mk, [] => exact .inr ⟨1, rfl⟩
  | .one mk, r :: rest => exact .inl ⟨mk r, rest, rfl, by rw [show encode (mk r) = [b, r] from h r]; rfl⟩
  | .two mk, [] => exact .inr ⟨1, rfl⟩
  | .two mk, [_] => exact .inr ⟨2, rfl⟩
  | .two mk, r :: c :: rest =>
    exact .inl ⟨mk r c, rest, rfl, by rw [show encode (mk r c) = [b, r, c] from h r c]; rfl⟩

/-- Everything the decoder can answer when there is an opcode byte: it is illegal, or the instruction encoded at the
front is answered, or an operand byte is missing. -/
theorem decode_cons_cases (b : Byte) (bytes : List Byte) :
    (decodeOpcode b = none ∧ decode (b :: bytes) = .error (.unknownOpcode b)) ∨
    (∃ i rest, decode (b :: bytes) = .ok (i, rest) ∧ encode i ++ rest = b :: bytes) ∨
    (∃ k, decode (b :: bytes) = .error (.missingOperand k)) := by
  cases hop : decodeOpcode b with
  | none => exact .inl ⟨rfl, decode_unknown hop bytes⟩
  | some shape =>
    rw [decode_known hop]
    exact .inr (Shape.fill_cases (decodeOpcode_encodesFrom hop) bytes)

/-- What decodes is the encoding of the instruction it decodes to, and the bytes left over. -/
theorem encode_append_of_decode {bytes rest : List Byte} {i : Instr} (h : decode bytes = .ok (i, rest)) :
    encode i ++ rest = bytes := by
  match bytes with
  | [] => cases h
  | b :: bytes =>
    rcases decode_cons_cases b bytes with ⟨_, hdec⟩ | ⟨j, rest', hdec, henc⟩ | ⟨k, hdec⟩
    all_goals
      rw [hdec] at h
      cases h
    exact henc

/-- Settles O3, by the cases of the decoder: only a shape filled from the front answers an instruction. -/
theorem encodeUndoesDecode : Obligations.EncodeUndoesDecode := fun _ _ _ h => encode_append_of_decode h

/-- Settles O1: the decoder evaluates to these answers. -/
theorem decodesWrittenWords : Obligations.DecodesWrittenWords := ⟨rfl, rfl, rfl, rfl, rfl, rfl, rfl⟩

/-- Settles O4, row by row of the opcode map: each bit of a literal opcode byte against the constructor. -/
theorem opcodesShareOneLayout : Obligations.OpcodesShareOneLayout := by
  intro i
  cases i <;> simp [Instr.opcodeByte, Instr.operands]

end Sys2Proof

/-! ## The step runs what decodes at pc (40_execution_cycle.md R64 to R67) -/

namespace Sys2Proof

/-- The bits 7 and 6 of the opcode byte fix the length (R55). -/
theorem Instr.length_eq_of_opcodeByte (i : Instr) : i.length = 1 + i.opcodeByte.toNat / 64 := by
  obtain ⟨_, hlength, hbits, _⟩ := i.layout
  omega

/-- Three bytes are the longest instruction (R49). -/
theorem Instr.length_le (i : Instr) : i.length ≤ 3 := by
  cases i <;> simp [Instr.length, Instr.operands]

end Sys2Proof

namespace Sys2Proof.Machine

theorem State.bytesFrom_succ (s : State) {a : Nat} (h : a < 256) (n : Nat) :
    s.bytesFrom a (n + 1) = s.mem.read a :: s.bytesFrom (a + 1) n := if_pos h

/-- No byte stands past address 255 (R34). -/
theorem State.bytesFrom_outside (s : State) {a : Nat} (h : 256 ≤ a) (n : Nat) : s.bytesFrom a n = [] := by
  cases n with
  | zero => rfl
  | succ n => exact if_neg (Nat.not_lt.2 h)

/-- The bytes from `a` on end at address 255. -/
theorem State.length_bytesFrom_le (s : State) (a n : Nat) : (s.bytesFrom a n).length ≤ 256 - a := by
  induction n generalizing a with
  | zero => exact Nat.zero_le _
  | succ n ih =>
    rcases Nat.lt_or_ge a 256 with ha | ha
    · have := ih (a + 1)
      rw [s.bytesFrom_succ ha, List.length_cons]
      omega
    · simp [s.bytesFrom_outside ha]

/-- States that agree on memory from `a` on have the same bytes there. -/
theorem State.bytesFrom_congr {s u : State} {a : Nat} (h : ∀ k, a ≤ k → u.mem.read k = s.mem.read k) (n : Nat) :
    u.bytesFrom a n = s.bytesFrom a n := by
  induction n generalizing a with
  | zero => rfl
  | succ n ih =>
    have tail := ih fun k hk => h k (Nat.le_of_succ_le hk)
    rcases Nat.lt_or_ge a 256 with ha | ha
    · rw [u.bytesFrom_succ ha, s.bytesFrom_succ ha, h a a.le_refl, tail]
    · rw [u.bytesFrom_outside ha, s.bytesFrom_outside ha]

/-- Bytes that stand in memory from `a` on are the first of the bytes from `a` on. -/
theorem State.bytesFrom_eq_append (s : State) (bytes : List Byte) (a n : Nat) (hn : bytes.length ≤ n)
    (ha : a + bytes.length ≤ 256) (h : ∀ (k : Nat) (hk : k < bytes.length), s.mem.read (a + k) = bytes[k]) :
    ∃ rest, s.bytesFrom a n = bytes ++ rest := by
  induction bytes generalizing a n with
  | nil => exact ⟨_, rfl⟩
  | cons b bytes ih =>
    rw [List.length_cons] at hn ha
    obtain ⟨n, rfl⟩ : ∃ m, n = m + 1 := ⟨n - 1, by omega⟩
    have hb : s.mem.read a = b := h 0 (Nat.succ_pos _)
    obtain ⟨rest, hrest⟩ := ih (a + 1) n (by omega) (by omega) fun k hk => by
      rw [Nat.add_right_comm, Nat.add_assoc]
      exact h (k + 1) (Nat.succ_lt_succ hk)
    exact ⟨rest, by rw [s.bytesFrom_succ (by omega), hb, hrest]; rfl⟩

/-- What the fetch makes of the decoder's answer on the bytes that memory holds from `pc` on. -/
def fetched : Except DecodeRefusal (Instr × List Byte) → Except MachineError Instr
  | .ok (i, _) => .ok i
  | .error (.unknownOpcode b) => .error (.unknownOpcode b)
  | .error (.missingOperand _) => .error (.outOfRangeAccess (.memory 256))
  | .error .noBytes => .error (.outOfRangeAccess (.memory 256))

/-- The operand fetch fills the shape from the bytes after the opcode, and a missing one is the byte at 256 (R66). -/
theorem State.fetchOperands_eq_fill (s : State) (shape : Shape) (hpc : s.pc < 256) :
    s.fetchOperands shape = fetched (shape.fill (s.bytesFrom (s.pc + 1) 2)) := by
  cases shape with
  | done i => rfl
  | one mk =>
    rcases Nat.lt_or_ge (s.pc + 1) 256 with h1 | h1
    · rw [s.bytesFrom_succ h1]
      simp only [State.fetchOperands, s.memRead_of_lt h1]
      rfl
    · have hend : s.pc + 1 = 256 := by omega
      rw [s.bytesFrom_outside h1]
      simp only [State.fetchOperands, hend]
      rfl
  | two mk =>
    rcases Nat.lt_or_ge (s.pc + 1) 256 with h1 | h1
    · rcases Nat.lt_or_ge (s.pc + 2) 256 with h2 | h2
      · rw [s.bytesFrom_succ h1, s.bytesFrom_succ h2]
        simp only [State.fetchOperands, s.memRead_of_lt h1, s.memRead_of_lt h2]
        rfl
      · have hend : s.pc + 2 = 256 := by omega
        rw [s.bytesFrom_succ h1, s.bytesFrom_outside h2]
        simp only [State.fetchOperands, s.memRead_of_lt h1, hend]
        rfl
    · have hend : s.pc + 1 = 256 := by omega
      rw [s.bytesFrom_outside h1]
      simp only [State.fetchOperands, hend]
      rfl

/-- Inside memory the fetch is the decoder on the bytes from `pc` on. -/
theorem State.fetch_eq_decode (s : State) (hpc : s.pc < 256) : s.fetch = fetched (decode (s.bytesFrom s.pc 3)) := by
  rw [s.bytesFrom_succ hpc]
  cases hop : decodeOpcode (s.mem.read s.pc) with
  | none => rw [s.fetch_unknown hpc hop, decode_unknown hop]; rfl
  | some shape =>
    rw [decode_known hop, ← s.fetchOperands_eq_fill shape hpc, s.fetch_inside hpc, hop]

/-- The step of a running engine inside memory does what the bytes from `pc` on decode to. -/
theorem stepRuns_bytesFrom {s : State} (hrun : s.state = .running) (hpc : s.pc < 256) :
    StepRuns s (s.bytesFrom s.pc 3) := by
  have hfetch := s.fetch_eq_decode hpc
  rw [s.bytesFrom_succ hpc] at hfetch ⊢
  rcases decode_cons_cases (s.mem.read s.pc) (s.bytesFrom (s.pc + 1) 2) with
    ⟨_, hdec⟩ | ⟨i, rest, hdec, _⟩ | ⟨k, hdec⟩
  all_goals
    unfold StepRuns
    rw [hdec] at hfetch ⊢
  · exact step_failsWith_of_fetch hrun hfetch
  · exact (step_running s hrun).trans (by rw [hfetch]; rfl)
  · exact step_failsWith_of_fetch hrun hfetch

/-- A running step is the meaning of the instruction that the bytes from `pc` on decode to. -/
theorem step_of_decode {s : State} {i : Instr} {rest : List Byte} (hrun : s.state = .running)
    (hdec : decode (s.bytesFrom s.pc 3) = .ok (i, rest)) : step s = exec i s := by
  have hpc : s.pc < 256 := by
    by_contra hpc
    rw [s.bytesFrom_outside (Nat.le_of_not_lt hpc)] at hdec
    cases hdec
  have hruns := stepRuns_bytesFrom hrun hpc
  unfold StepRuns at hruns
  rwa [hdec] at hruns

/-- Settles O36: inside memory the fetch is the decoder, and past address 255 no byte decodes. -/
theorem stepRunsDecodedInstruction : Obligations.StepRunsDecodedInstruction :=
  fun _ _ _ hrun hdec => step_of_decode hrun hdec

/-- Settles O37: an encoding that stands at `pc` is the front of the bytes from `pc` on, and there it decodes. -/
theorem stepRunsEncodedInstruction : Obligations.StepRunsEncodedInstruction := by
  intro s i hrun hfits hread
  obtain ⟨hlength, _⟩ := i.layout
  obtain ⟨rest, hbytes⟩ := s.bytesFrom_eq_append (encode i) s.pc 3 (hlength ▸ i.length_le) (hlength ▸ hfits) hread
  exact step_of_decode hrun (hbytes ▸ decode_encode i rest)

/-- Settles O41: were the bytes at `pc` an instruction, it would have the length of `i` and lie in memory, so the
decoder misses an operand byte. -/
theorem operandFetchPastMemoryFails : Obligations.OperandFetchPastMemoryFails := by
  intro s i hrun hpc hop hlong
  have hruns := stepRuns_bytesFrom hrun hpc
  have hfits := s.length_bytesFrom_le s.pc 3
  rw [s.bytesFrom_succ hpc] at hruns hfits
  unfold StepRuns at hruns
  rcases decode_cons_cases (s.mem.read s.pc) (s.bytesFrom (s.pc + 1) 2) with
    ⟨hnone, _⟩ | ⟨j, rest, _, henc⟩ | ⟨k, hdec⟩
  · obtain ⟨shape, hshape, _⟩ := i.lookup
    rw [hop, hshape] at hnone
    cases hnone
  · have hsame : j.opcodeByte = i.opcodeByte := (List.cons.inj henc).1.trans hop
    have hlength : j.length = i.length := by rw [j.length_eq_of_opcodeByte, hsame, i.length_eq_of_opcodeByte]
    have hj : j.length ≤ 256 - s.pc := by
      rw [← henc, List.length_append, j.layout.1] at hfits
      omega
    omega
  · rwa [hdec] at hruns

/-- Every opcode fails at the operand byte at address 256, however many of its operand bytes lie before it. -/
theorem pastTheEndFails (i : Instr) : PastTheEndFails i.opcodeByte i.operands.length := by
  intro s k hrun hpc hop _ hk hend
  rw [hend]
  exact operandFetchPastMemoryFails s i hrun hpc hop (by unfold Instr.length; omega)

end Sys2Proof.Machine

/-! ## The meaning of each instruction: its effect, or the error of an operand

`Effect` and `OperandError` say between them what every instruction does; later proofs cite the two laws of `exec` below
and unfold no meaning. -/

namespace Sys2Proof.Machine

/-- The error an instruction raises, first in the order of its handler (60_exceptions.md R100, R101). -/
def OperandError (i : Instr) (s : State) (d : OutOfRange) : Prop :=
  match i with
  | .hlt | .ret => False
  | .ldi r _ | .prn r | .push r | .pop r | .jmp r => 8 ≤ r.toNat ∧ d = .register r
  | .mul a b | .add a b | .cmp a b =>
      (8 ≤ a.toNat ∧ d = .register a) ∨ (a.toNat < 8 ∧ 8 ≤ b.toNat ∧ d = .register b)
  | .call r =>
      (256 ≤ s.pc + 2 ∧ d = .value (s.pc + 2)) ∨ (s.pc + 2 < 256 ∧ 8 ≤ r.toNat ∧ d = .register r)
  | .jeq r => s.fl = .equal ∧ 8 ≤ r.toNat ∧ d = .register r
  | .jne r => s.fl ≠ .equal ∧ 8 ≤ r.toNat ∧ d = .register r

/-- An instruction completes with its effect wherever it has one. -/
theorem exec_of_effect {i : Instr} {s t : State} (h : Effect i s t) : exec i s = .next t := by
  cases i with
  | hlt => subst h; rfl
  | ldi r imm =>
    obtain ⟨h, rfl⟩ := h
    simp only [exec, execLdi, s.writeReg_of_lt _ h, u8_toNat]
    rfl
  | prn r => obtain ⟨h, rfl⟩ := h; exact exec_prn_of_lt s h
  | mul a b | add a b =>
    obtain ⟨ha, hb, rfl⟩ := h
    simp only [exec, execMul, execAdd, aluHandler_of_lt _ s ha hb, aluApply, Except.bind, State.writeAlu,
      s.writeReg_of_lt _ ha, u8_toNat]
    rfl
  | cmp a b =>
    obtain ⟨ha, hb, rfl⟩ := h
    simp only [exec, execCmp, aluHandler_of_lt _ s ha hb, aluApply, Except.bind, State.writeAlu]
    rfl
  | push r =>
    obtain ⟨h, rfl⟩ := h
    simp only [exec, execPush, s.decSp.readReg_of_lt h, bind, Except.bind, State.storeAtSp_byte]
    rfl
  | pop r =>
    obtain ⟨h, rfl⟩ := h
    simp only [exec, execPop, s.loadAtSp_eq, bind, Except.bind, s.writeReg_of_lt _ h, u8_toNat]
    rfl
  | call r =>
    obtain ⟨hp, h, rfl⟩ := h
    simp only [exec, execCall, s.decSp.storeAtSp_of_lt hp, bind, Except.bind, State.readReg_of_lt _ h]
    rfl
  | ret =>
    subst h
    simp only [exec, execRet, s.loadAtSp_eq]
    rfl
  | jmp r => obtain ⟨h, rfl⟩ := h; exact exec_jmp_of_lt s h
  | jeq r =>
    rcases h with ⟨hf, h, rfl⟩ | ⟨hf, rfl⟩
    · simp only [exec, execJeq, if_pos hf, jumpTo_of_lt s h]
      rfl
    · simp only [exec, execJeq, if_neg hf]
      rfl
  | jne r =>
    rcases h with ⟨hf, h, rfl⟩ | ⟨hf, rfl⟩
    · simp only [exec, execJne, if_pos hf, jumpTo_of_lt s h]
      rfl
    · simp only [exec, execJne, if_neg (not_not.2 hf)]
      rfl

/-- An instruction with an operand error raises that error, and nothing else happens. -/
theorem exec_of_operandError {i : Instr} {s : State} {d : OutOfRange} (h : OperandError i s d) :
    exec i s = .next (s.raise (.outOfRangeAccess d)) := by
  cases i with
  | hlt | ret => cases h
  | ldi r imm => obtain ⟨h, rfl⟩ := h; simp only [exec, execLdi, s.writeReg_of_ge _ h]; rfl
  | prn r => obtain ⟨h, rfl⟩ := h; exact exec_prn_of_ge s h
  | mul a b | add a b | cmp a b =>
    rcases h with ⟨ha, rfl⟩ | ⟨ha, hb, rfl⟩
    · simp only [exec, execMul, execAdd, execCmp, aluHandler_first _ s b ha, complete_error]
    · simp only [exec, execMul, execAdd, execCmp, aluHandler_second _ s ha hb, complete_error]
  | push r => obtain ⟨h, rfl⟩ := h; simp only [exec, execPush, s.decSp.readReg_of_ge h]; rfl
  | pop r =>
    obtain ⟨h, rfl⟩ := h
    simp only [exec, execPop, s.loadAtSp_eq, bind, Except.bind, s.writeReg_of_ge _ h, complete_error]
  | call r =>
    rcases h with ⟨hp, rfl⟩ | ⟨hp, h, rfl⟩
    · simp only [exec, execCall, s.decSp.storeAtSp_value hp]
      rfl
    · simp only [exec, execCall, s.decSp.storeAtSp_of_lt hp, bind, Except.bind, State.readReg_of_ge _ h, complete_error]
  | jmp r => obtain ⟨h, rfl⟩ := h; exact exec_jmp_of_ge s h
  | jeq r => obtain ⟨hf, h, rfl⟩ := h; simp only [exec, execJeq, if_pos hf, jumpTo_of_ge s h, complete_error]
  | jne r => obtain ⟨hf, h, rfl⟩ := h; simp only [exec, execJne, if_pos hf, jumpTo_of_ge s h, complete_error]

/-- Every instruction has an effect or an operand error in every state. -/
theorem effect_or_operandError (i : Instr) (s : State) : (∃ t, Effect i s t) ∨ ∃ d, OperandError i s d := by
  cases i with
  | hlt | ret => exact .inl ⟨_, rfl⟩
  | ldi r | prn r | push r | pop r | jmp r =>
    exact (reg_lt_or_ge r).imp (fun h => ⟨_, h, rfl⟩) fun h => ⟨_, h, rfl⟩
  | mul a b | add a b | cmp a b =>
    rcases reg_lt_or_ge a with ha | ha
    · exact (reg_lt_or_ge b).imp (fun hb => ⟨_, ha, hb, rfl⟩) fun hb => ⟨_, .inr ⟨ha, hb, rfl⟩⟩
    · exact .inr ⟨_, .inl ⟨ha, rfl⟩⟩
  | call r =>
    rcases Nat.lt_or_ge (s.pc + 2) 256 with hp | hp
    · exact (reg_lt_or_ge r).imp (fun h => ⟨_, hp, h, rfl⟩) fun h => ⟨_, .inr ⟨hp, h, rfl⟩⟩
    · exact .inr ⟨_, .inl ⟨hp, rfl⟩⟩
  | jeq r =>
    by_cases hf : s.fl = .equal
    · exact (reg_lt_or_ge r).imp (fun h => ⟨_, .inl ⟨hf, h, rfl⟩⟩) fun h => ⟨_, hf, h, rfl⟩
    · exact .inl ⟨_, .inr ⟨hf, rfl⟩⟩
  | jne r =>
    by_cases hf : s.fl = .equal
    · exact .inl ⟨_, .inr ⟨hf, rfl⟩⟩
    · exact (reg_lt_or_ge r).imp (fun h => ⟨_, .inl ⟨hf, h, rfl⟩⟩) fun h => ⟨_, hf, h, rfl⟩

/-- What an instruction answered was its effect, or the error of its operand. -/
theorem effect_or_operandError_of_next {i : Instr} {s t : State} (h : exec i s = .next t) :
    Effect i s t ∨ ∃ d, OperandError i s d ∧ t = s.raise (.outOfRangeAccess d) := by
  rcases effect_or_operandError i s with ⟨u, hu⟩ | ⟨d, hd⟩
  · rw [exec_of_effect hu] at h; cases h; exact .inl hu
  · rw [exec_of_operandError hd] at h; cases h; exact .inr ⟨d, hd, rfl⟩

/-- An operand error is an observable failure. -/
theorem failsWith_of_operandError {i : Instr} {s : State} {d : OutOfRange} (h : OperandError i s d) :
    FailsWith s (.outOfRangeAccess d) (exec i s) := by
  rw [exec_of_operandError h]
  exact failsWith_raise s _

/-- A running step at the opcode of a one-byte instruction is that instruction's meaning, at address 255 too (R66). -/
theorem step_of_one_byte {s : State} {i : Instr} (hi : encode i = [i.opcodeByte]) (hrun : s.state = .running)
    (hpc : s.pc < 256) (hop : s.mem.read s.pc = i.opcodeByte) : step s = exec i s := by
  have hdec := decode_encode i (s.bytesFrom (s.pc + 1) 2)
  rw [hi, List.singleton_append, ← hop, ← s.bytesFrom_succ hpc] at hdec
  exact step_of_decode hrun hdec

end Sys2Proof.Machine

/-! ## Memory, flags and the ALU, operation by operation (20_memory.md, 10_state.md, 42_alu.md) -/

namespace Sys2Proof.Machine

/-- Settles O6, from the law of `memWrite` inside memory, and one of its two checks for each error. -/
theorem memWriteIsValidated : Obligations.MemWriteIsValidated := by
  intro s a v
  refine ⟨fun ha hv => ⟨_, s.memWrite_of_lt ha hv, ?_, rfl, rfl, rfl, rfl, rfl, rfl⟩, s.memWrite_value, ?_⟩
  · exact Memory.read_write s.mem a (u8 v)
  · exact fun ha => if_neg (Nat.not_lt.2 ha)

/-- Settles O9: the four patterns by definition, and the excluded ones at each of the four values. -/
theorem flagPatternsAreExact : Obligations.FlagPatternsAreExact := by
  refine ⟨rfl, rfl, rfl, rfl, fun f => ?_⟩
  cases f <;> decide

/-- Settles O10: the result is a natural number reduced to a byte, and the two operations commute on naturals. -/
theorem aluWrapsAndCommutes : Obligations.AluWrapsAndCommutes := by
  intro a b
  refine ⟨⟨_, rfl, toNat_u8 _⟩, ⟨_, rfl, toNat_u8 _⟩, ?_, ?_⟩
  · simp only [aluApply, Nat.add_comm]
  · simp only [aluApply, Nat.mul_comm]

/-- Settles O11: an operation that is none of the three is one of the numbered codes. -/
theorem aluRefusesOtherOperations : Obligations.AluRefusesOtherOperations := by
  intro op a b hadd hmul hcmp
  cases op with
  | add => exact absurd rfl hadd
  | mul => exact absurd rfl hmul
  | cmp => exact absurd rfl hcmp
  | other n => rfl

/-- Settles O44: the record's code is read off its error. -/
theorem errorCodesAreNumbered : Obligations.ErrorCodesAreNumbered := by
  refine ⟨rfl, rfl, rfl, rfl, fun _ => rfl, fun _ => rfl, fun _ => rfl, fun _ => rfl, ?_, ?_⟩
  · intro s h
    simp only [State.errCode, h]
  · intro s r h
    simp only [State.errCode, h]

end Sys2Proof.Machine

/-! ## The instructions one by one (41_system_data.md, 42_alu.md, 43_stack.md, 44_control.md) -/

namespace Sys2Proof.Machine

/-- Settles O12: HLT's effect, and the step at its one byte. -/
theorem hltHalts : Obligations.HltHalts :=
  ⟨rfl, fun _ => rfl, fun _ hrun hpc hop => step_of_one_byte (i := .hlt) rfl hrun hpc hop⟩

/-- Settles O13: LDI's effect, its operand error, and the law of all opcodes past the end. -/
theorem ldiLoadsImmediate : Obligations.LdiLoadsImmediate := by
  refine ⟨fun _ _ => rfl, fun s r imm h => ?_, fun s r imm h => ?_, pastTheEndFails (.ldi 0 0)⟩
  · exact exec_of_effect (i := .ldi r imm) ⟨h, rfl⟩
  · exact failsWith_of_operandError (i := .ldi r imm) ⟨h, rfl⟩

/-- Settles O15: MUL's effect, its two operand errors in order, and the law of all opcodes past the end. -/
theorem mulMultipliesLowByte : Obligations.MulMultipliesLowByte := by
  refine ⟨fun _ _ => rfl, fun s a b ha hb => ?_, fun s a b ha => ?_, fun s a b ha hb => ?_, pastTheEndFails (.mul 0 0)⟩
  · exact exec_of_effect (i := .mul a b) ⟨ha, hb, rfl⟩
  · exact failsWith_of_operandError (i := .mul a b) (.inl ⟨ha, rfl⟩)
  · exact failsWith_of_operandError (i := .mul a b) (.inr ⟨ha, hb, rfl⟩)

/-- Settles O16: ADD's effect, its two operand errors in order, and the law of all opcodes past the end. -/
theorem addAddsModulo256 : Obligations.AddAddsModulo256 := by
  refine ⟨fun _ _ => rfl, fun s a b ha hb => ?_, fun s a b ha => ?_, fun s a b ha hb => ?_, pastTheEndFails (.add 0 0)⟩
  · exact exec_of_effect (i := .add a b) ⟨ha, hb, rfl⟩
  · exact failsWith_of_operandError (i := .add a b) (.inl ⟨ha, rfl⟩)
  · exact failsWith_of_operandError (i := .add a b) (.inr ⟨ha, hb, rfl⟩)

/-- Settles O17: CMP's effect is the classification, whose three cases are the unsigned order's. -/
theorem cmpClassifiesUnsigned : Obligations.CmpClassifiesUnsigned := by
  refine ⟨fun _ _ => rfl, fun s a b ha hb => ?_, fun s a b ha => ?_, fun s a b ha hb => ?_, pastTheEndFails (.cmp 0 0)⟩
  · have hcmp := exec_of_effect (i := .cmp a b) (s := s) ⟨ha, hb, rfl⟩
    refine ⟨fun hlt => ?_, fun hgt => ?_, fun heq => ?_⟩
    · rw [hcmp, classify_lt hlt]; rfl
    · rw [hcmp, classify_gt hgt]; rfl
    · rw [hcmp, BitVec.eq_of_toNat_eq heq, classify_self]; rfl
  · exact failsWith_of_operandError (i := .cmp a b) (.inl ⟨ha, rfl⟩)
  · exact failsWith_of_operandError (i := .cmp a b) (.inr ⟨ha, hb, rfl⟩)

/-- Settles O18: PUSH's effect, whose one store is at `pushAddr`, its operand error, and the law past the end. -/
theorem pushStoresAtNewSp : Obligations.PushStoresAtNewSp := by
  refine ⟨fun _ => rfl, fun s r h => ?_, fun s r h => ?_, pastTheEndFails (.push 0)⟩
  · refine ⟨_, exec_of_effect (i := .push r) ⟨h, rfl⟩, rfl, fun a => ?_, rfl, rfl, rfl, rfl, rfl⟩
    exact s.pushAddr_eq ▸ Memory.read_write s.mem s.pushAddr _ a
  · exact failsWith_of_operandError (i := .push r) ⟨h, rfl⟩

/-- Settles O19: POP's effect, its operand error, and the law of all opcodes past the end. -/
theorem popLoadsThenIncrementsSp : Obligations.PopLoadsThenIncrementsSp := by
  refine ⟨fun _ => rfl, fun s r h => ?_, fun s r h => ?_, pastTheEndFails (.pop 0)⟩
  · exact exec_of_effect (i := .pop r) ⟨h, rfl⟩
  · exact failsWith_of_operandError (i := .pop r) ⟨h, rfl⟩

/-- Settles O20: CALL's effect, whose one store is at `pushAddr`, its two errors in order, and the law past the end. -/
theorem callPushesReturnAddress : Obligations.CallPushesReturnAddress := by
  refine ⟨fun _ => rfl, fun s r h hp => ?_, fun s r hp => ?_, fun s r hp h => ?_, pastTheEndFails (.call 0)⟩
  · refine ⟨_, exec_of_effect (i := .call r) ⟨hp, h, rfl⟩, rfl, fun a => ?_, rfl, rfl, rfl, rfl, rfl⟩
    exact s.pushAddr_eq ▸ Memory.read_write s.mem s.pushAddr _ a
  · exact failsWith_of_operandError (i := .call r) (.inl ⟨hp, rfl⟩)
  · exact failsWith_of_operandError (i := .call r) (.inr ⟨hp, h, rfl⟩)

/-- Settles O21: RET's effect, and the step at its one byte. -/
theorem retPopsTarget : Obligations.RetPopsTarget := by
  have hret (s : State) : exec .ret s = .next (s.incSp.setPc (s.mem.read s.sp.toNat).toNat) :=
    exec_of_effect (i := .ret) rfl
  exact ⟨rfl, hret, fun s hrun hpc hop => (step_of_one_byte (i := .ret) rfl hrun hpc hop).trans (hret s)⟩

/-- Settles O23: JEQ's effect taken and not taken, its operand error when taken, and the law past the end. -/
theorem jeqTakenIffEqual : Obligations.JeqTakenIffEqual := by
  refine ⟨fun _ => rfl, fun s r h hf => ?_, fun s r hf => ?_, fun s r hf h => ?_, pastTheEndFails (.jeq 0)⟩
  · exact exec_of_effect (i := .jeq r) (.inl ⟨hf, h, rfl⟩)
  · exact exec_of_effect (i := .jeq r) (.inr ⟨hf, rfl⟩)
  · exact failsWith_of_operandError (i := .jeq r) ⟨hf, h, rfl⟩

/-- Settles O24: JNE's effect taken and not taken, its operand error when taken, and the law past the end. -/
theorem jneTakenIffNotEqual : Obligations.JneTakenIffNotEqual := by
  refine ⟨fun _ => rfl, fun s r h hf => ?_, fun s r hf => ?_, fun s r hf h => ?_, pastTheEndFails (.jne 0)⟩
  · exact exec_of_effect (i := .jne r) (.inl ⟨hf, h, rfl⟩)
  · exact exec_of_effect (i := .jne r) (.inr ⟨hf, rfl⟩)
  · exact failsWith_of_operandError (i := .jne r) ⟨hf, h, rfl⟩

end Sys2Proof.Machine

/-! ## The frame of the instructions (10_state.md, 20_memory.md section 1) -/

namespace Sys2Proof.Machine

/-! ### One register of the file -/

theorem State.setReg_getElem_ne (s : State) {i : Fin 8} (v : Byte) {n : Nat} (hn : n < 8) (h : n ≠ i.val) :
    (s.setReg i v).x[n] = s.x[n] := Vector.getElem_set_ne i.isLt hn h.symm

theorem State.setReg_comm (s : State) {i k : Fin 8} (v w : Byte) (h : i ≠ k) :
    (s.setReg i v).setReg k w = (s.setReg k w).setReg i v := by
  have hx : (s.x.set i v).set k w = (s.x.set k w).set i v := Vector.set_comm _ _ fun e => h (Fin.ext e)
  exact congrArg (fun x => { s with x := x }) hx

theorem State.setPc_setReg (s : State) (k : Fin 8) (v : Byte) (n : Nat) :
    (s.setPc n).setReg k v = (s.setReg k v).setPc n := rfl

theorem State.sp_setReg_ne (s : State) {k : Fin 8} (v : Byte) (hk : k ≠ 7) : (s.setReg k v).sp = s.sp := by
  rw [State.sp_setReg, if_neg hk]

/-- A change of R0 to R6 commutes with the decrement of SP. -/
theorem State.decSp_setReg (s : State) {k : Fin 8} (v : Byte) (hk : k ≠ 7) :
    (s.setReg k v).decSp = s.decSp.setReg k v := by
  unfold State.decSp
  rw [s.sp_setReg_ne v hk, s.setReg_comm v _ hk]

/-- A change of R0 to R6 commutes with the increment of SP. -/
theorem State.incSp_setReg (s : State) {k : Fin 8} (v : Byte) (hk : k ≠ 7) :
    (s.setReg k v).incSp = s.incSp.setReg k v := by
  unfold State.incSp
  rw [s.sp_setReg_ne v hk, s.setReg_comm v _ hk]

theorem State.pushAddr_setReg (s : State) {k : Fin 8} (v : Byte) (hk : k ≠ 7) :
    (s.setReg k v).pushAddr = s.pushAddr := by
  rw [State.pushAddr_eq, State.pushAddr_eq, s.sp_setReg_ne v hk]

/-! ### What an effect leaves unchanged -/

/-- A completed instruction records no error (R28). -/
theorem Effect.err_eq {i : Instr} {s t : State} (h : Effect i s t) : t.err = s.err := by
  cases i with
  | hlt | ret => subst h; rfl
  | ldi | prn | push | pop | jmp => obtain ⟨_, rfl⟩ := h; rfl
  | mul | add | cmp => obtain ⟨_, _, rfl⟩ := h; rfl
  | call => obtain ⟨_, _, rfl⟩ := h; rfl
  | jeq | jne => obtain ⟨_, _, rfl⟩ | ⟨_, rfl⟩ := h <;> rfl

/-- HLT alone changes the run state of a completing instruction (R27). -/
theorem Effect.state_eq {i : Instr} {s t : State} (hi : i ≠ .hlt) (h : Effect i s t) : t.state = s.state := by
  cases i with
  | hlt => exact absurd rfl hi
  | ret => subst h; rfl
  | ldi | prn | push | pop | jmp => obtain ⟨_, rfl⟩ := h; rfl
  | mul | add | cmp => obtain ⟨_, _, rfl⟩ := h; rfl
  | call => obtain ⟨_, _, rfl⟩ := h; rfl
  | jeq | jne => obtain ⟨_, _, rfl⟩ | ⟨_, rfl⟩ := h <;> rfl

/-- PRN alone emits a byte (R29). -/
theorem Effect.out_eq {i : Instr} {s t : State} (hi : ∀ r, i ≠ .prn r) (h : Effect i s t) : t.out = s.out := by
  cases i with
  | prn r => exact absurd rfl (hi r)
  | hlt | ret => subst h; rfl
  | ldi | push | pop | jmp => obtain ⟨_, rfl⟩ := h; rfl
  | mul | add | cmp => obtain ⟨_, _, rfl⟩ := h; rfl
  | call => obtain ⟨_, _, rfl⟩ := h; rfl
  | jeq | jne => obtain ⟨_, _, rfl⟩ | ⟨_, rfl⟩ := h <;> rfl

/-- Memory changes by one store at the pushed address, of PUSH or CALL, or not at all (R44). -/
theorem Effect.mem_cases {i : Instr} {s t : State} (h : Effect i s t) :
    t.mem = s.mem ∨ ∃ r v, (i = .push r ∨ i = .call r) ∧ t.mem = s.mem.write s.pushAddr v := by
  cases i with
  | push r => obtain ⟨_, rfl⟩ := h; exact .inr ⟨r, _, .inl rfl, rfl⟩
  | call r => obtain ⟨_, _, rfl⟩ := h; exact .inr ⟨r, _, .inr rfl, rfl⟩
  | hlt | ret => subst h; exact .inl rfl
  | ldi | prn | pop | jmp => obtain ⟨_, rfl⟩ := h; exact .inl rfl
  | mul | add | cmp => obtain ⟨_, _, rfl⟩ := h; exact .inl rfl
  | jeq | jne => obtain ⟨_, _, rfl⟩ | ⟨_, rfl⟩ := h <;> exact .inl rfl

/-- A byte of memory is as before unless PUSH or CALL stores at its address. -/
theorem Effect.read_eq {i : Instr} {s t : State} (h : Effect i s t) {a : Nat}
    (ha : (∀ r, i ≠ .push r ∧ i ≠ .call r) ∨ a ≠ s.pushAddr) : t.mem.read a = s.mem.read a := by
  rcases h.mem_cases with hm | ⟨r, v, hi, hm⟩
  · rw [hm]
  · rcases ha with ha | ha
    · exact absurd hi (not_or.2 (ha r))
    · rw [hm, Memory.read_write, if_neg ha]

/-- A register that is no destination keeps its value (R20). -/
theorem Effect.reg_eq {i : Instr} {s t : State} (h : Effect i s t) {k : Fin 8} (hk : k.val ∉ destinations i) :
    t.x[k] = s.x[k] := by
  cases i with
  | hlt => subst h; rfl
  | prn | jmp => obtain ⟨_, rfl⟩ := h; rfl
  | cmp => obtain ⟨_, _, rfl⟩ := h; rfl
  | jeq | jne => obtain ⟨_, _, rfl⟩ | ⟨_, rfl⟩ := h <;> rfl
  | ldi => obtain ⟨_, rfl⟩ := h; exact s.setReg_getElem_ne _ k.isLt (List.ne_of_not_mem_cons hk)
  | mul | add => obtain ⟨_, _, rfl⟩ := h; exact s.setReg_getElem_ne _ k.isLt (List.ne_of_not_mem_cons hk)
  | push => obtain ⟨_, rfl⟩ := h; exact s.setReg_getElem_ne _ k.isLt (List.ne_of_not_mem_cons hk)
  | call => obtain ⟨_, _, rfl⟩ := h; exact s.setReg_getElem_ne _ k.isLt (List.ne_of_not_mem_cons hk)
  | ret => subst h; exact s.setReg_getElem_ne _ k.isLt (List.ne_of_not_mem_cons hk)
  | pop r =>
    obtain ⟨_, rfl⟩ := h
    have hr : k.val ≠ r.toNat := List.ne_of_not_mem_cons hk
    have h7 : k.val ≠ 7 := List.ne_of_not_mem_cons (List.not_mem_of_not_mem_cons hk)
    exact (State.setReg_getElem_ne _ _ k.isLt h7).trans (s.setReg_getElem_ne _ k.isLt hr)

/-- Settles O31, one frame lemma of the effect for each piece of state. -/
theorem everyInstructionHasItsFrame : Obligations.EveryInstructionHasItsFrame := by
  intro i s t h hf
  have he := effect_of_next h hf
  exact ⟨fun _ => he.reg_eq, fun hi => he.fl_eq hi, fun _ => he.read_eq, fun hi => he.out_eq hi,
    fun hi => he.state_eq hi, he.err_eq⟩

/-- Settles O34: the effect of each instruction names its new `pc`. -/
theorem sequencerWritesPc : Obligations.SequencerWritesPc := by
  intro i s t h hf
  have he := effect_of_next h hf
  cases i with
  | hlt | ret => subst he; rfl
  | ldi | prn | push | pop => obtain ⟨_, rfl⟩ := he; rfl
  | mul | add | cmp => obtain ⟨_, _, rfl⟩ := he; rfl
  | call => obtain ⟨_, hr, rfl⟩ := he; exact ⟨hr, rfl⟩
  | jmp => obtain ⟨hr, rfl⟩ := he; exact ⟨hr, rfl⟩
  | jeq =>
    rcases he with ⟨hfl, hr, rfl⟩ | ⟨hfl, rfl⟩
    · simp only [if_pos hfl]; exact ⟨hr, rfl⟩
    · simp only [if_neg hfl]; rfl
  | jne =>
    rcases he with ⟨hfl, hr, rfl⟩ | ⟨hfl, rfl⟩
    · simp only [if_neg hfl]; exact ⟨hr, rfl⟩
    · simp only [if_pos hfl]; rfl

/-! ### A register that no operand names -/

/-- Changing one of R0 to R6 that no operand names carries through an effect (R20). -/
theorem Effect.setReg {i : Instr} {s t : State} {k : Fin 8} (hk : k ≠ 7)
    (hr : ∀ r ∈ i.registerOperands, r.toNat ≠ k.val) (h : Effect i s t) (v : Byte) :
    Effect i (s.setReg k v) (t.setReg k v) := by
  have read (u : State) {r : Byte} (hr' : r.toNat < 8) (hne : r.toNat ≠ k.val) :
      (u.setReg k v).x[r.toNat] = u.x[r.toNat] := u.setReg_getElem_ne v hr' hne
  have write (u : State) {r : Byte} (hr' : r.toNat < 8) (hne : r.toNat ≠ k.val) (w : Byte) :
      (u.setReg ⟨r.toNat, hr'⟩ w).setReg k v = (u.setReg k v).setReg ⟨r.toNat, hr'⟩ w :=
    u.setReg_comm w v fun e => hne (congrArg Fin.val e)
  cases i with
  | hlt => subst h; rfl
  | ldi r imm =>
    obtain ⟨h, rfl⟩ := h
    have hne := hr r (.head _)
    exact ⟨h, by rw [State.setPc_setReg, write s h hne]; rfl⟩
  | prn r =>
    obtain ⟨h, rfl⟩ := h
    exact ⟨h, by rw [read s h (hr r (.head _))]; rfl⟩
  | mul a b | add a b =>
    obtain ⟨ha, hb, rfl⟩ := h
    have hna := hr a (.head _)
    have hnb := hr b (.tail _ (.head _))
    exact ⟨ha, hb, by rw [State.setPc_setReg, write s ha hna, read s ha hna, read s hb hnb]; rfl⟩
  | cmp a b =>
    obtain ⟨ha, hb, rfl⟩ := h
    exact ⟨ha, hb, by rw [read s ha (hr a (.head _)), read s hb (hr b (.tail _ (.head _)))]; rfl⟩
  | push r =>
    obtain ⟨h, rfl⟩ := h
    refine ⟨h, ?_⟩
    simp only [s.decSp_setReg v hk, s.pushAddr_setReg v hk, read s.decSp h (hr r (.head _))]
    rfl
  | pop r =>
    obtain ⟨h, rfl⟩ := h
    refine ⟨h, ?_⟩
    rw [State.setPc_setReg, ← State.incSp_setReg _ v hk, write s h (hr r (.head _)), s.sp_setReg_ne v hk]
    rfl
  | call r =>
    obtain ⟨hp, h, rfl⟩ := h
    refine ⟨hp, h, ?_⟩
    simp only [s.decSp_setReg v hk, s.pushAddr_setReg v hk, read s.decSp h (hr r (.head _))]
    rfl
  | ret =>
    subst h
    unfold Effect
    rw [State.setPc_setReg, ← s.incSp_setReg v hk, s.sp_setReg_ne v hk]
    rfl
  | jmp r =>
    obtain ⟨h, rfl⟩ := h
    exact ⟨h, by rw [read s h (hr r (.head _))]; rfl⟩
  | jeq r | jne r =>
    rcases h with ⟨hf, h, rfl⟩ | ⟨hf, rfl⟩
    · exact .inl ⟨hf, h, by rw [read s h (hr r (.head _))]; rfl⟩
    · exact .inr ⟨hf, rfl⟩

/-- An operand error does not depend on the value of any register. -/
theorem OperandError.setReg {i : Instr} {s : State} {d : OutOfRange} (h : OperandError i s d) (k : Fin 8) (v : Byte) :
    OperandError i (s.setReg k v) d := h

/-- Settles O33: the change carries through the effect, and an operand error is the same error after it. -/
theorem unnamedRegistersDoNotMatter : Obligations.UnnamedRegistersDoNotMatter := by
  intro i s t k v hk hr h
  rcases effect_or_operandError_of_next h with he | ⟨d, hd, rfl⟩
  · exact ⟨t.setReg k v, exec_of_effect (he.setReg hk hr v), rfl, rfl, rfl, fun _ => ⟨rfl, rfl, rfl, rfl⟩⟩
  · exact ⟨_, exec_of_operandError (hd.setReg k v), rfl, rfl, rfl, fun hn => absurd rfl hn⟩

/-! ### Completion -/

theorem wellFormed_iff (i : Instr) : i.wellFormed = true ↔ ∀ r ∈ i.registerOperands, r.toNat < 8 := by
  simp [Instr.wellFormed, namesRegister]

/-- Operands that name registers raise nothing, but for the return address of a CALL (R100). -/
theorem not_operandError {i : Instr} {s : State} (hr : ∀ r ∈ i.registerOperands, r.toNat < 8)
    (hcall : ∀ r, i = .call r → s.pc + 2 < 256) (d : OutOfRange) : ¬ OperandError i s d := by
  intro h
  cases i with
  | hlt | ret => exact h
  | ldi r | prn r | push r | pop r | jmp r => exact Nat.not_lt.2 h.1 (hr r (.head _))
  | mul a b | add a b | cmp a b =>
    rcases h with ⟨ha, _⟩ | ⟨_, hb, _⟩
    · exact Nat.not_lt.2 ha (hr a (.head _))
    · exact Nat.not_lt.2 hb (hr b (.tail _ (.head _)))
  | call r =>
    rcases h with ⟨hp, _⟩ | ⟨_, h, _⟩
    · exact Nat.not_lt.2 hp (hcall r rfl)
    · exact Nat.not_lt.2 h (hr r (.head _))
  | jeq r | jne r => exact Nat.not_lt.2 h.2.1 (hr r (.head _))

/-- The run state after an effect: HALTED after HLT, and as before after every other instruction. -/
theorem Effect.state_cases {i : Instr} {s t : State} (h : Effect i s t) :
    (i = .hlt ∧ t = s.halt) ∨ (i ≠ .hlt ∧ t.state = s.state) := by
  by_cases hi : i = .hlt
  · subst hi; exact .inl ⟨rfl, h⟩
  · exact .inr ⟨hi, h.state_eq hi⟩

/-- Settles O35: without an operand error an instruction has its effect. -/
theorem wellFormedInstructionsComplete : Obligations.WellFormedInstructionsComplete := by
  intro i s hwf hcall hrun
  rcases effect_or_operandError i s with ⟨t, he⟩ | ⟨d, hd⟩
  · refine ⟨t, exec_of_effect he, ?_, he.err_eq⟩
    rcases he.state_cases with ⟨hi, rfl⟩ | ⟨_, hst⟩
    · exact .inr ⟨rfl, hi⟩
    · exact .inl (hst.trans hrun)
  · exact absurd hd (not_operandError ((wellFormed_iff i).1 hwf) hcall d)

end Sys2Proof.Machine

/-! ## What a step can do (40_execution_cycle.md, 60_exceptions.md) -/

namespace Sys2Proof.Machine

/-- The errors a step can raise: an access out of range, or an opcode that is none of the 13 (R100). -/
def StepError (e : MachineError) : Prop := e.kind = .outOfRangeAccess ∨ e.kind = .unknownOpcode

/-- Everything a step can do: the effect of the instruction that lies whole in memory at `pc`, or one precise error. -/
theorem step_cases {s t : State} (h : step s = .next t) :
    (∃ i, s.pc + i.length ≤ 256 ∧ s.mem.read s.pc = i.opcodeByte ∧ Effect i s t) ∨
    (∃ e, StepError e ∧ t = s.raise e) := by
  rw [step_running s (running_of_step_next h)] at h
  rcases fetch_cases s with ⟨a, hf⟩ | ⟨b, hf⟩ | ⟨i, hf, hfits, hop⟩
  all_goals rw [hf] at h
  · cases h; exact .inr ⟨_, .inl rfl, rfl⟩
  · cases h; exact .inr ⟨_, .inr rfl, rfl⟩
  · rcases effect_or_operandError_of_next h with he | ⟨d, _, rfl⟩
    · exact .inl ⟨i, hfits, hop, he⟩
    · exact .inr ⟨_, .inl rfl, rfl⟩

/-- The effect of an instruction of a running engine leaves it running, or halts it at an HLT. -/
theorem Effect.state_of_running {i : Instr} {s t : State} (h : Effect i s t) (hrun : s.state = .running) :
    t.state = .running ∨ (i = .hlt ∧ t = s.halt) := by
  rcases h.state_cases with hhlt | ⟨_, hst⟩
  · exact .inr hhlt
  · exact .inl (hst.trans hrun)

/-- The effect of an instruction of a running engine is no failure. -/
theorem Effect.not_failed {i : Instr} {s t : State} (h : Effect i s t) (hrun : s.state = .running) :
    t.state ≠ .failed := by
  rcases h.state_of_running hrun with hst | ⟨_, rfl⟩
  · rw [hst]; decide
  · exact fun hf => nomatch hf

/-- A step that fails raised one error, and did nothing else (R102). -/
theorem raise_of_step_failed {s t : State} (h : step s = .next t) (hf : t.state = .failed) :
    ∃ e, StepError e ∧ t = s.raise e := by
  rcases step_cases h with ⟨i, _, _, he⟩ | herr
  · exact absurd hf (he.not_failed (running_of_step_next h))
  · exact herr

/-- Settles O42: a failing step is `State.raise`, which writes `state` and `err` alone. -/
theorem errorsArePrecise : Obligations.ErrorsArePrecise := by
  intro s t _ h hf
  obtain ⟨e, _, rfl⟩ := raise_of_step_failed h hf
  exact ⟨e, rfl⟩

/-- Settles O43: a failing step raised one of the errors of a step. -/
theorem stepsRaiseTwoKinds : Obligations.StepsRaiseTwoKinds := by
  intro s t _ h hf
  obtain ⟨e, he, rfl⟩ := raise_of_step_failed h hf
  exact ⟨⟨e, s.pc⟩, rfl, rfl, rfl, he⟩

/-- An effect emits one byte, for PRN, or none (R29). -/
theorem Effect.out_grows {i : Instr} {s t : State} (h : Effect i s t) :
    ∃ emitted : List Byte, emitted.length ≤ 1 ∧ t.out = s.out ++ emitted := by
  by_cases hi : ∃ r, i = .prn r
  · obtain ⟨r, rfl⟩ := hi
    obtain ⟨hr, rfl⟩ := h
    exact ⟨[s.x[r.toNat]], Nat.le_refl 1, rfl⟩
  · exact ⟨[], Nat.zero_le 1, by rw [h.out_eq fun r hr => hi ⟨r, hr⟩, List.append_nil]⟩

/-- Settles O45: an effect emits at most one byte, and an error none. -/
theorem outputOnlyGrows : Obligations.OutputOnlyGrows := by
  intro s t h
  rcases step_cases h with ⟨i, _, _, he⟩ | ⟨e, _, rfl⟩
  · exact he.out_grows
  · exact ⟨[], Nat.zero_le 1, (List.append_nil _).symm⟩

end Sys2Proof.Machine

/-! ## Construction, Load and Run (70_reset_and_hazards.md) -/

namespace Sys2Proof.Machine

/-- A Load is accepted exactly outside RUNNING, and its effect does not depend on the state before (R113). -/
theorem hostLoad_eq_next_iff {q : LoadRequest} {s t : State} :
    hostLoad q s = .next t ↔ s.state ≠ .running ∧ t = State.afterLoad q := by
  unfold hostLoad
  by_cases hrun : s.state = .running
  · simp [hrun]
  · simp [hrun, eq_comm]

/-- Everything an accepted Load can leave: the image in a fresh state, or a LoadError (R113). -/
theorem State.afterLoad_cases (q : LoadRequest) :
    (∃ image, State.afterLoad q = State.loaded image) ∨ ∃ reason, State.afterLoad q = State.loadFailed reason := by
  cases q with
  | image bytes =>
    simp only [State.afterLoad]
    split
    · exact .inl ⟨bytes, rfl⟩
    · exact .inr ⟨_, rfl⟩
  | unreadable | malformed => exact .inr ⟨_, rfl⟩

/-- An image of at most 256 bytes is loaded. -/
theorem State.afterLoad_image {image : List Byte} (h : image.length ≤ 256) :
    State.afterLoad (.image image) = State.loaded image := if_pos (decide_eq_true h)

/-- A longer image is a LoadError (R113, D17). -/
theorem State.afterLoad_tooLong {image : List Byte} (h : 256 < image.length) :
    State.afterLoad (.image image) = State.loadFailed .tooLong :=
  if_neg (by rw [imageFits, decide_eq_true_iff]; exact Nat.not_le.2 h)

/-- A loaded memory holds the image from address 0, and zeros after it. -/
theorem State.read_loaded {image : List Byte} (h : image.length ≤ 256) (k : Nat) :
    (State.loaded image).mem.read k = image.getD k 0 := by
  have hread := Memory.read_writeBytes image State.reset.mem 0 k
  by_cases hk : k < image.length
  · exact hread.trans (if_pos (by omega))
  · rw [List.getD_eq_default _ _ (Nat.le_of_not_lt hk)]
    exact hread.trans (if_neg (by omega))

/-- Settles O46: the reset state by definition. -/
theorem resetIsConstruction : Obligations.ResetIsConstruction :=
  ⟨fun _ => rfl, by decide, rfl, rfl, rfl, rfl, rfl⟩

/-- Settles O47: a Load outside RUNNING is accepted, and leaves what each request's law says. -/
theorem loadWritesImage : Obligations.LoadWritesImage := by
  intro s hs
  have accepted (q : LoadRequest) : hostLoad q s = .next (State.afterLoad q) := hostLoad_eq_next_iff.2 ⟨hs, rfl⟩
  refine ⟨fun image hfits => ?_, fun image hlong => ?_, ⟨_, accepted _, rfl, rfl, rfl⟩, ⟨_, accepted _, rfl, rfl, rfl⟩⟩
  · refine ⟨_, State.afterLoad_image hfits ▸ accepted _, fun k hk => ?_, fun k hk => ?_,
      Memory.wf_writeBytes image [] 0 rfl, rfl, rfl, rfl, rfl, rfl, rfl⟩
    · rw [State.read_loaded hfits, List.getD_eq_getElem]
    · rw [State.read_loaded hfits, List.getD_eq_default _ _ hk]
  · exact ⟨_, State.afterLoad_tooLong hlong ▸ accepted _, rfl, rfl, rfl⟩

/-- Run entry after construction gives SP its value, and every other register is 0 (R114, R116). -/
theorem State.runEntry_reset_x : ∀ k : Fin 8, State.reset.runEntry.x[k] = if k = 7 then 0xF4 else 0 := by decide

/-- Settles O49: the Load of an image that fits, then run entry, field by field. -/
theorem bringUpIsComplete : Obligations.BringUpIsComplete := by
  intro s image hs hfits
  refine ⟨State.loaded image, (State.loaded image).runEntry,
    hostLoad_eq_next_iff.2 ⟨hs, (State.afterLoad_image hfits).symm⟩, hostRun_of_notStarted rfl,
    fun k => ?_, State.runEntry_reset_x, rfl, rfl, rfl, rfl, rfl⟩
  rw [State.runEntry_mem, State.read_loaded hfits]
  split
  · exact List.getD_eq_getElem _ _ _
  · next hk => exact List.getD_eq_default _ _ (Nat.le_of_not_lt hk)

/-- In an ended run `Run` has no effect (R115). -/
theorem hostRun_of_ended {s : State} (h : Ended s) : hostRun s = .next s := by
  rcases h with h | h <;> simp only [hostRun, h]

theorem hostRun_of_running {s : State} (h : s.state = .running) : hostRun s = .refused .hostActionWhileRunning := by
  simp only [hostRun, h]

/-- Everything an accepted `Run` can do: run entry, or nothing in an ended run (R114, R115). -/
theorem hostRun_cases {s t : State} (h : hostRun s = .next t) :
    (s.state = .notStarted ∧ t = s.runEntry) ∨ (Ended s ∧ t = s) := by
  cases hst : s.state with
  | notStarted => rw [hostRun_of_notStarted hst] at h; cases h; exact .inl ⟨rfl, rfl⟩
  | running => rw [hostRun_of_running hst] at h; cases h
  | halted => rw [hostRun_of_ended (.inl hst)] at h; cases h; exact .inr ⟨.inl hst, rfl⟩
  | failed => rw [hostRun_of_ended (.inr hst)] at h; cases h; exact .inr ⟨.inr hst, rfl⟩

theorem Ended.not_running {s : State} (h : Ended s) : s.state ≠ .running := by
  rcases h with h | h <;> simp [h]

/-- Settles O50: each host action looks at the run state first. -/
theorem hostHasNoMoveWhileRunning : Obligations.HostHasNoMoveWhileRunning :=
  fun _ hrun => ⟨hostRun_of_running hrun, fun _ => if_pos hrun⟩

/-- Settles O51: an ended run is not running, so it has no step, and `Run` has no effect on it. -/
theorem endedRunsAreTerminal : Obligations.EndedRunsAreTerminal := by
  intro s hs
  have noStep (t : State) : step s ≠ .next t := fun h => hs.not_running (running_of_step_next h)
  refine ⟨noStep, hostRun_of_ended hs, fun e t h hne => ?_, fun q => ⟨_, hostLoad_eq_next_iff.2 ⟨hs.not_running, rfl⟩⟩⟩
  cases e with
  | load q => exact ⟨q, rfl⟩
  | run =>
    rcases hostRun_cases h with ⟨hst, _⟩ | ⟨_, ht⟩
    · rcases hs with hs | hs <;> rw [hs] at hst <;> cases hst
    · exact absurd ht hne
  | step => exact absurd h (noStep t)

/-- Settles O52, event by event: what a Load, a Run and a step can do. -/
theorem runStateTransitions : Obligations.RunStateTransitions := by
  intro e s t h
  cases e with
  | load q =>
    obtain ⟨hs, rfl⟩ := hostLoad_eq_next_iff.1 h
    refine ⟨hs, ?_⟩
    rcases State.afterLoad_cases q with ⟨image, hq⟩ | ⟨reason, hq⟩
    · rw [hq]; exact .inl ⟨rfl, rfl⟩
    · rw [hq]; exact .inr ⟨rfl, reason, rfl⟩
  | run =>
    rcases hostRun_cases h with ⟨hs, rfl⟩ | hended
    · exact .inl ⟨hs, rfl, by simp [Config.spInit]⟩
    · exact .inr hended
  | step =>
    have hrun := running_of_step_next h
    refine ⟨hrun, ?_⟩
    rcases step_cases h with ⟨i, _, hop, he⟩ | ⟨e, _, rfl⟩
    · rcases he.state_of_running hrun with hst | ⟨rfl, rfl⟩
      · exact .inl hst
      · exact .inr (.inl ⟨rfl, hop⟩)
    · exact .inr (.inr ⟨rfl, e, rfl⟩)

end Sys2Proof.Machine

/-! ## The invariant -/

namespace Sys2Proof.Machine

/-- Settles O53: every clause by definition of the reset state. -/
theorem constructionMeetsInv : Obligations.ConstructionMeetsInv where
  mem_wf := rfl
  pc_le := fun _ => Nat.zero_le _
  err_iff := by decide
  fresh := fun _ => ⟨rfl, rfl, rfl, rfl⟩
  halted_at := fun h => nomatch h

/-- A failed state with an error record meets the invariant if its memory is canonical: no other clause speaks of it. -/
theorem Inv.raise {s : State} (hwf : s.mem.wf = true) (e : MachineError) : Inv (s.raise e) where
  mem_wf := hwf
  pc_le := fun h => absurd rfl h
  err_iff := ⟨fun _ => rfl, fun _ => rfl⟩
  fresh := fun h => nomatch h
  halted_at := fun h => nomatch h

/-- A running state meets the invariant by the clauses on memory, `pc` and the empty error record. -/
theorem Inv.of_running {s : State} (hwf : s.mem.wf = true) (hpc : s.pc ≤ 256) (herr : s.err = none)
    (hrun : s.state = .running) : Inv s where
  mem_wf := hwf
  pc_le := fun _ => hpc
  err_iff := by simp [herr, hrun]
  fresh := by simp [hrun]
  halted_at := by simp [hrun]

/-- Outside FAILED the error record is empty (R28). -/
theorem Inv.err_eq_none {s : State} (h : Inv s) (hf : s.state ≠ .failed) : s.err = none :=
  Option.not_isSome_iff_eq_none.1 fun he => hf (h.err_iff.1 he)

/-- An effect keeps memory canonical: its one store is at an address that SP holds (R33). -/
theorem Effect.mem_wf {i : Instr} {s t : State} (h : Effect i s t) (hwf : s.mem.wf = true) : t.mem.wf = true := by
  rcases h.mem_cases with hm | ⟨r, v, _, hm⟩
  · rwa [hm]
  · rw [hm]
    exact Memory.wf_write s.mem s.pushAddr v hwf s.pushAddr_lt

/-- An effect continues after the instruction's own bytes or at a byte, so `pc` does not pass 256 (R22, R69). -/
theorem Effect.pc_le {i : Instr} {s t : State} (h : Effect i s t) (hfits : s.pc + i.length ≤ 256) : t.pc ≤ 256 := by
  have byte_le (b : Byte) : b.toNat ≤ 256 := Nat.le_of_lt b.isLt
  cases i with
  | hlt => subst h; exact Nat.le_of_lt hfits
  | ret => subst h; exact byte_le _
  | ldi | prn | push | pop => obtain ⟨_, rfl⟩ := h; exact hfits
  | mul | add | cmp => obtain ⟨_, _, rfl⟩ := h; exact hfits
  | call => obtain ⟨_, _, rfl⟩ := h; exact byte_le _
  | jmp => obtain ⟨_, rfl⟩ := h; exact byte_le _
  | jeq | jne =>
    rcases h with ⟨_, _, rfl⟩ | ⟨_, rfl⟩
    · exact byte_le _
    · exact hfits

/-- HLT of a running engine stops at its own opcode byte, which meets the clause on HALTED (R69, R76). -/
theorem Inv.halt {s : State} (h : Inv s) (hrun : s.state = .running) (hpc : s.pc < 256)
    (hop : s.mem.read s.pc = 0x01) : Inv s.halt where
  mem_wf := h.mem_wf
  pc_le := fun _ => Nat.le_of_lt hpc
  err_iff := by simp [h.err_eq_none (by simp [hrun])]
  fresh := fun h => nomatch h
  halted_at := fun _ => ⟨hpc, hop⟩

/-- Every step keeps the invariant: an effect leaves the engine running or halts it at an HLT, an error fails it. -/
theorem Inv.step {s t : State} (h : Inv s) (hstep : step s = .next t) : Inv t := by
  have hrun := running_of_step_next hstep
  rcases step_cases hstep with ⟨i, hfits, hop, he⟩ | ⟨e, _, rfl⟩
  · rcases he.state_of_running hrun with hst | ⟨rfl, rfl⟩
    · exact Inv.of_running (he.mem_wf h.mem_wf) (he.pc_le hfits) (he.err_eq.trans (h.err_eq_none (by simp [hrun]))) hst
    · exact h.halt hrun hfits hop
  · exact Inv.raise h.mem_wf e

/-- Settles O54: what a step can do, each case with its law of the invariant. -/
theorem stepKeepsInv : Obligations.StepKeepsInv := fun _ _ h hstep => h.step hstep

/-- A Load establishes the invariant: construction with a canonical memory, or a failed state. -/
theorem Inv.afterLoad (q : LoadRequest) : Inv (State.afterLoad q) := by
  rcases State.afterLoad_cases q with ⟨image, hq⟩ | ⟨reason, hq⟩
  · rw [hq]
    exact { constructionMeetsInv with mem_wf := Memory.wf_writeBytes image [] 0 rfl, halted_at := fun h => nomatch h }
  · rw [hq]
    exact Inv.raise rfl _

/-- `Run` keeps the invariant: run entry writes SP and `state` alone, and an ended run stays as it is. -/
theorem Inv.hostRun {s t : State} (h : Inv s) (hrun : hostRun s = .next t) : Inv t := by
  rcases hostRun_cases hrun with ⟨hst, rfl⟩ | ⟨_, rfl⟩
  · have hlive : s.state ≠ .failed := by simp [hst]
    exact Inv.of_running h.mem_wf (h.pc_le hlive) (h.err_eq_none hlive) rfl
  · exact h

/-- Settles O55: a Load's result does not depend on the state before, and `Run` is one of its two cases. -/
theorem hostActionsKeepInv : Obligations.HostActionsKeepInv := by
  refine ⟨fun q s t h => ?_, fun s t h hrun => h.hostRun hrun⟩
  obtain ⟨_, rfl⟩ := hostLoad_eq_next_iff.1 h
  exact Inv.afterLoad q

/-- Every reachable state meets the invariant: construction does, and each event keeps it. -/
theorem Reachable.inv {s : State} (h : Reachable s) : Inv s := by
  induction h with
  | construction => exact constructionMeetsInv
  | event e _ hact ih =>
    cases e with
    | load q => exact hostActionsKeepInv.1 q _ _ hact
    | run => exact ih.hostRun hact
    | step => exact ih.step hact

/-- Settles O56: reachable states meet the invariant, and a running one steps to a state the transitions allow. -/
theorem reachableStatesAreSound : Obligations.ReachableStatesAreSound := by
  intro s hs
  refine ⟨hs.inv, fun hrun => ?_⟩
  obtain ⟨t, ht⟩ := step_next_of_running hrun
  refine ⟨t, ht, ?_⟩
  obtain ⟨_, hst | ⟨hst, _⟩ | ⟨hst, _⟩⟩ := runStateTransitions .step s t ht
  all_goals rw [hst]; decide

end Sys2Proof.Machine

/-! ## Canonical memories (20_memory.md section 1) -/

namespace Sys2Proof.Machine

/-- A canonical memory that lists a cell does not read as the empty one. -/
theorem Memory.read_head_ne_zero {k : Nat} {v : Byte} {m : Memory} (hm : Memory.wf ((k, v) :: m) = true) :
    Memory.read ((k, v) :: m) k ≠ 0 := by
  obtain ⟨_, hv, _, _⟩ := (Memory.wf_cons k v m).1 hm
  rwa [Memory.read_cons, if_pos rfl]

/-- Below its first listed address a canonical memory reads 0, and at it another byte, so memories that read alike start
at the same address. -/
theorem Memory.head_le_of_read_eq {k j : Nat} {v w : Byte} {m n : Memory} (hm : Memory.wf ((k, v) :: m) = true)
    (hn : Memory.wf ((j, w) :: n) = true) (h : Memory.read ((k, v) :: m) k = Memory.read ((j, w) :: n) k) : j ≤ k := by
  obtain ⟨_, _, hj, _⟩ := (Memory.wf_cons j w n).1 hn
  by_contra hlt
  have hbelow : ∀ c ∈ (j, w) :: n, k < c.1 :=
    List.forall_mem_cons.2 ⟨Nat.lt_of_not_le hlt, fun c hc => Nat.lt_trans (Nat.lt_of_not_le hlt) (hj c hc)⟩
  exact Memory.read_head_ne_zero hm (h.trans (Memory.read_of_lt_all hbelow))

/-- Settles O8, by induction on the first list: the heads of two canonical memories that read alike are equal, and their
tails read alike again. -/
theorem canonicalMemoriesAreEqual : Obligations.CanonicalMemoriesAreEqual := by
  intro m
  induction m with
  | nil =>
    intro n _ hn h
    cases n with
    | nil => rfl
    | cons d n => exact absurd (h d.1).symm (Memory.read_head_ne_zero hn)
  | cons c m ih =>
    intro n hm hn h
    obtain ⟨k, v⟩ := c
    cases n with
    | nil => exact absurd (h k) (Memory.read_head_ne_zero hm)
    | cons d n =>
      obtain ⟨j, w⟩ := d
      obtain rfl : k = j :=
        Nat.le_antisymm (Memory.head_le_of_read_eq hn hm (h j).symm) (Memory.head_le_of_read_eq hm hn (h k))
      obtain ⟨_, _, hk, hwm⟩ := (Memory.wf_cons k v m).1 hm
      obtain ⟨_, _, hk', hwn⟩ := (Memory.wf_cons k w n).1 hn
      have hvw : v = w := by simpa only [Memory.read_cons, if_pos] using h k
      have htail (a : Nat) : Memory.read m a = Memory.read n a := by
        by_cases ha : k = a
        · rw [← ha, Memory.read_of_lt_all hk, Memory.read_of_lt_all hk']
        · simpa only [Memory.read_cons, if_neg ha] using h a
      rw [hvw, ih n hwm hwn htail]

end Sys2Proof.Machine

/-! ## Laws over several instructions (43_stack.md, 44_control.md, 20_memory.md section 5, 95_test_vectors.md) -/

namespace Sys2Proof.Machine

@[simp] theorem State.incSp_decSp (s : State) : s.decSp.incSp = s := by
  have hx : (s.x.set 7 (s.sp - 1)).set 7 s.sp = s.x := by rw [Vector.set_set]; exact Vector.set_getElem_self _
  unfold State.incSp
  rw [s.sp_decSp, sub_add_cancel]
  exact congrArg (fun x => { s with x := x }) hx

@[simp] theorem State.setReg_self (s : State) (i : Fin 8) : s.setReg i s.x[i] = s :=
  congrArg (fun x => { s with x := x }) (Vector.set_getElem_self i.isLt)

/-- A register as PUSH and CALL read it, after the decrement of SP (R12, D6). -/
theorem State.decSp_getElem (s : State) {n : Nat} (h : n < 8) :
    s.decSp.x[n] = if n = 7 then s.x[7] - 1 else s.x[n] := by
  by_cases hn : n = 7
  · subst hn; exact s.sp_decSp
  · rw [if_neg hn]; exact s.setReg_getElem_ne _ h hn

/-- PUSH then POP: the byte goes through memory into the second register, and SP goes down and up again. -/
theorem exec_push_pop (s : State) {a b : Byte} (ha : a.toNat < 8) (hb : b.toNat < 8) : ∃ t u,
    exec (.push a) s = .next t ∧ exec (.pop b) t = .next u ∧
    u.x = (s.decSp.setReg ⟨b.toNat, hb⟩ (s.decSp.x[a.toNat]'ha)).incSp.x ∧ u.pc = s.pc + 4 ∧
    u.mem = s.mem.write s.pushAddr (s.decSp.x[a.toNat]'ha) := by
  refine ⟨_, _, exec_of_effect (i := .push a) ⟨ha, rfl⟩, exec_of_effect (i := .pop b) ⟨hb, rfl⟩, ?_, rfl, rfl⟩
  have hread : (s.mem.write s.pushAddr (s.decSp.x[a.toNat]'ha)).read s.decSp.sp.toNat = s.decSp.x[a.toNat]'ha :=
    (Memory.read_write _ _ _ _).trans (if_pos rfl)
  exact congrArg (fun v => (s.decSp.setReg ⟨b.toNat, hb⟩ v).incSp.x) hread

/-- Settles O25: the popped register gets the value it has after the decrement, so only SP moves, down and up. -/
theorem pushThenPopRestores : Obligations.PushThenPopRestores := by
  intro s r h
  obtain ⟨t, u, hpush, hpop, hx, hpc, hmem⟩ := exec_push_pop s h h
  refine ⟨t, u, hpush, hpop, ?_, hpc, ?_, fun k hk => ?_⟩
  · calc u.x = (s.decSp.setReg ⟨r.toNat, h⟩ (s.decSp.x[r.toNat]'h)).incSp.x := hx
      _ = s.decSp.incSp.x := congrArg (fun v => v.incSp.x) (s.decSp.setReg_self ⟨r.toNat, h⟩)
      _ = s.x := by rw [s.incSp_decSp]
  · rw [hmem, Memory.read_write]
    exact (if_pos s.pushAddr_eq.symm).trans (s.decSp_getElem h)
  · rw [hmem, Memory.read_write, if_neg fun e => hk (e.trans s.pushAddr_eq)]

/-- Settles O26: a write of a register other than SP commutes with the increment, which undoes the decrement. -/
theorem pushThenPopCopies : Obligations.PushThenPopCopies := by
  intro s a b ha hb hb7
  obtain ⟨t, u, hpush, hpop, hx, _, _⟩ := exec_push_pop s ha hb
  refine ⟨t, u, hpush, hpop, ?_⟩
  rw [hx, s.decSp.incSp_setReg _ fun e => hb7 (congrArg Fin.val e), s.incSp_decSp, s.decSp_getElem ha]
  rfl

/-- A PUSH of a register completes with SP one lower (R87). -/
theorem exec_push_sp (s : State) {r : Byte} (h : r.toNat < 8) :
    ∃ t, exec (.push r) s = .next t ∧ t.x[7] = s.x[7] - 1 :=
  ⟨_, exec_of_effect (i := .push r) ⟨h, rfl⟩, s.sp_decSp⟩

/-- Settles O27, by induction on the pushes: each takes SP down by one modulo 256. -/
theorem spAfterPushes : Obligations.SpAfterPushes := by
  intro rs
  induction rs with
  | nil =>
    intro s _
    refine ⟨s, rfl, ?_⟩
    have := s.x[7].isLt
    simp only [List.length_nil]
    omega
  | cons r rs ih =>
    intro s hrs
    obtain ⟨hr, hrs⟩ := List.forall_mem_cons.1 hrs
    obtain ⟨u, hu, hsp⟩ := exec_push_sp s hr
    obtain ⟨t, ht, hcount⟩ := ih u hrs
    refine ⟨t, ?_, ?_⟩
    · rw [List.map_cons, execAll, hu]
      exact ht
    · have hdown : (s.x[7] - 1).toNat = (s.x[7].toNat + 255) % 256 := by bv_omega
      rw [hcount, hsp, hdown, List.length_cons]
      omega

/-- Settles O28: the return byte is `pc + 2`, which is below 256, and RET's increment undoes CALL's decrement of SP. -/
theorem retResumesAfterCall : Obligations.RetResumesAfterCall := by
  intro s t u r hr hpc hcall hsp hbyte
  have he : Effect (.call r) s t := by
    rcases effect_or_operandError_of_next hcall with he | ⟨d, ⟨hp, _⟩ | ⟨_, hr', _⟩, _⟩
    · exact he
    · omega
    · omega
  obtain ⟨hp, _, rfl⟩ := he
  refine ⟨_, exec_of_effect (i := .ret) rfl, ?_, ?_⟩
  · have hret : u.mem.read u.sp.toNat = u8 (s.pc + 2) := by
      rw [State.sp, hsp, hbyte]
      exact (Memory.read_write _ _ _ _).trans (if_pos rfl)
    rw [State.setPc_pc, hret, toNat_u8, Nat.mod_eq_of_lt hp]
  · calc u.incSp.sp = u.sp + 1 := u.sp_incSp
      _ = s.decSp.sp + 1 := congrArg (· + 1) hsp
      _ = s.sp := by rw [s.sp_decSp, sub_add_cancel]

/-- Settles O29: PRN emits the register that LDI has just written. -/
theorem ldiThenPrnEmitsValue : Obligations.LdiThenPrnEmitsValue := by
  intro s r v h
  refine ⟨_, _, exec_of_effect (i := .ldi r v) ⟨h, rfl⟩, exec_of_effect (i := .prn r) ⟨h, rfl⟩, ?_⟩
  exact congrArg (fun w => s.out ++ [w]) (Vector.getElem_set_self h)

/-- After a store of `v` at the pushed address, a jump to it runs the instruction that `v` starts, with the bytes that
stood after that address before the store. -/
theorem jump_to_pushed {s t : State} {v : Byte} (hrun : t.state = .running) (hsp : t.sp = s.sp - 1)
    (hmem : t.mem = s.mem.write s.pushAddr v) :
    ∃ u, exec (.jmp 7) t = .next u ∧ u.pc = (s.x[7] - 1).toNat ∧ u.mem.read u.pc = v ∧
      StepRuns u (v :: s.bytesFrom (u.pc + 1) 2) := by
  have hu : exec (.jmp 7) t = .next (t.setPc (s.sp - 1).toNat) := hsp ▸ exec_jmp_of_lt t (by decide)
  have hread (k : Nat) : t.mem.read k = if k = (s.sp - 1).toNat then v else s.mem.read k := by
    rw [hmem, Memory.read_write, s.pushAddr_eq]
  have hbyte : t.mem.read (s.sp - 1).toNat = v := (hread _).trans (if_pos rfl)
  refine ⟨_, hu, rfl, hbyte, ?_⟩
  have hruns : StepRuns (t.setPc (s.sp - 1).toNat) _ := stepRuns_bytesFrom hrun (s.sp - 1).isLt
  have htail : (t.setPc (s.sp - 1).toNat).bytesFrom ((s.sp - 1).toNat + 1) 2 =
      s.bytesFrom ((s.sp - 1).toNat + 1) 2 :=
    State.bytesFrom_congr (fun k hk => (hread k).trans (if_neg (by omega))) 2
  rwa [State.setPc_pc, State.bytesFrom_succ _ (s.sp - 1).isLt, State.setPc_mem, hbyte, htail] at hruns

/-- Settles O30: PUSH and CALL each store one byte at the pushed address, and the jump there runs it. -/
theorem pushedByteIsExecuted : Obligations.PushedByteIsExecuted := by
  intro s r h hrun
  refine ⟨?_, fun hp => ?_⟩
  · obtain ⟨u, hjmp, hpc, hbyte, hruns⟩ := jump_to_pushed
      (t := (s.decSp.setMem (s.mem.write s.pushAddr (s.decSp.x[r.toNat]'h))).setPc (s.pc + 2)) hrun s.sp_decSp rfl
    exact ⟨_, u, exec_of_effect (i := .push r) ⟨h, rfl⟩, hjmp, hpc, hbyte, hruns⟩
  · obtain ⟨u, hjmp, hpc, hbyte, hruns⟩ := jump_to_pushed
      (t := (s.decSp.setMem (s.mem.write s.pushAddr (u8 (s.pc + 2)))).setPc (s.decSp.x[r.toNat]'h).toNat)
      hrun s.sp_decSp rfl
    exact ⟨_, u, exec_of_effect (i := .call r) ⟨hp, h, rfl⟩, hjmp, hpc, hbyte, hruns⟩

end Sys2Proof.Machine
